-- ==== Sys2Proof/Word.lean ====
section
/-! DEFINITION. The bit-vector types of the block: one name for each width the spec uses. -/
namespace Sys2Proof

/-- One expander payload or controller word (00_scope.md R11: bytes are 8 bits wide). -/
abbrev Byte := BitVec 8

/-- One nibble, the four data lines DB7..DB4 (00_scope.md R11). -/
abbrev Nibble := BitVec 4

/-- One bit: RS, R/W, EN, BT, or the backlight state `bl`. -/
abbrev Bit := BitVec 1

/-- A request word, 11 bits (30_encoding.md R80, R81). -/
abbrev ReqWord := BitVec 11

/-- A response word, 6 bits (30_encoding.md R80, R84). -/
abbrev RspWord := BitVec 6

/-- A stage number, 3 bits (10_state.md R22). -/
abbrev StageNum := BitVec 3

/-- A 7-bit device address of the two-wire bus (20_memory.md R50). -/
abbrev DevAddr := BitVec 7

end Sys2Proof
end

