-- ==== Sys2Proof/Config.lean ====
section
/-! DEFINITION. What is fixed when the block is built (00_scope.md R9) and the free values the spec leaves open. -/
namespace Sys2Proof

/-- The rows of the parameter table of 00_scope.md R9 that a model takes as arguments: the open address and every row
marked "(parameter)". The other rows are constants (Machine/Operands.lean). Delays are whole milliseconds (R10). -/
structure Params where
  /-- `EXPANDER_ADDR7`, open (92_eei_decisions.md D5). -/
  expanderAddr7 : DevAddr
  /-- `FORCE_NIBBLE`, the nibble of stage 2 (D6). -/
  forceNibble : Nibble
  /-- `CMD_DISPLAY_CONTROL`, the word of stage 4 (D7). -/
  cmdDisplayControl : Byte
  /-- `T_SETUP`, between the settle and the strobe write (D10). -/
  tSetup : Nat
  /-- `T_S1_AFTER`, after the stage-1 write (D11). -/
  tS1After : Nat
  /-- `T_CLEAR`, after stage 7 (D12). -/
  tClear : Nat
  /-- `T_HOME`, after the Return-Home of the cursor operations (D13). -/
  tHome : Nat
  deriving DecidableEq, Repr

/-- The legal values of `CMD_DISPLAY_CONTROL` are 0x0C to 0x0F (41_init_fsm.md R144). -/
abbrev Params.Legal (p : Params) : Prop := p.cmdDisplayControl &&& 0xFC#8 = 0x0C#8

/-- FREE VALUE. The address of the expander: no source gives one (92_eei_decisions.md D5, 91_not_in_source.md N6). -/
opaque Config.expanderAddr7 : DevAddr

/-- FREE VALUE. What the expander's pins hold after the n-th draw that a reset makes: unknown until the first
successful write (10_state.md R31, 92_eei_decisions.md D19). -/
opaque Config.expAtReset : Nat → Byte

/-- FREE VALUE. Whether the expander had latched the payload of a write that was answered FAIL
(20_memory.md R52, 92_eei_decisions.md D18). -/
opaque Config.failedWriteLatched : Nat → Bool

/-- FREE VALUE. Which of two responses that fall due together at the end of INIT, successful or failed, goes out first:
true when it is the init-completion response (60_exceptions.md R204, 92_eei_decisions.md D21). -/
opaque Config.initResponseFirst : Nat → Bool

end Sys2Proof
end

