-- ==== Sys2Proof/Syntax.lean ====
section
/-! DEFINITION. The syntax: one constructor of `Instr` for each row of spec/opcode_table.json, and the actions and scripts
of 00_scope.md R13. -/
namespace Sys2Proof

/-- The instructions: the host's requests, the encoder's primitives, the init stages, the controller words and the
payload shapes (30_encoding.md R88). Only the requests are decoded from a word by the block; the sequencer runs the
others as parts of scripts. -/
inductive Instr where
  /-- WCMD, 42_runtime_ops.md R172. -/
  | wcmd (data : Byte)
  /-- WCHR, R173. -/
  | wchr (data : Byte)
  /-- LINE1, R174. The operand is ignored (30_encoding.md R83) and kept so that no bit of the word is dropped. -/
  | line1 (data : Byte)
  /-- LINE2, R175. The operand is ignored. -/
  | line2 (data : Byte)
  /-- RSV, R176: `op` is one of 0b100 to 0b111, and `data` is ignored. -/
  | rsv (op : BitVec 3) (data : Byte)
  /-- EXP_WRITE, 40_encoder.md R113. -/
  | expWrite (v : Byte)
  /-- DELAY, R111: `t` in milliseconds. -/
  | delay (t : Nat)
  /-- BL_WRITE, R119: its operand `bl` is read from the state. -/
  | blWrite
  /-- SEND_NIBBLE, R114: `n8` holds the nibble in bits 7:4, and only bit 0 of `rs` is taken. -/
  | sendNibble (n8 rs : Byte)
  /-- SEND_BYTE, R115. -/
  | sendByte (value rs : Byte)
  /-- SEND_COMMAND, R116. -/
  | sendCommand (value : Byte)
  /-- SEND_CHARACTER, R117. -/
  | sendCharacter (value : Byte)
  /-- INIT_S1, PowerSettle, 41_init_fsm.md R141. -/
  | initS1
  /-- INIT_S2, ForceFourBit, R142. -/
  | initS2
  /-- INIT_S3, FunctionSet, R143. -/
  | initS3
  /-- INIT_S4, DisplayControl, R144. -/
  | initS4
  /-- INIT_S5, EntryModeSet, R145. -/
  | initS5
  /-- INIT_S6, BacklightOn, R146. -/
  | initS6
  /-- INIT_S7, ClearDisplay, R147. -/
  | initS7
  /-- IR_CLEAR, 30_encoding.md R87. -/
  | irClear
  /-- IR_HOME, R87. -/
  | irHome
  /-- IR_ENTRY_MODE, R87. -/
  | irEntryMode
  /-- IR_DISPLAY_CONTROL, R87: `cb` is the cursor bit and the blink bit. -/
  | irDisplayControl (cb : BitVec 2)
  /-- IR_CURSOR_RIGHT, R87. -/
  | irCursorRight
  /-- IR_FUNCTION_SET, R87. -/
  | irFunctionSet
  /-- IR_COMMAND, a word with RS = 0 carried for WCMD, R172. -/
  | irCommand (d : Byte)
  /-- IR_DATA, a word with RS = 1 carried for WCHR, R173. -/
  | irData (d : Byte)
  /-- IR_FORCE_NIBBLE, the stand-alone nibble of stage 2, 41_init_fsm.md R142. -/
  | irForceNibble
  /-- EXP_STROBE, a payload with EN = 1, 30_encoding.md R85. -/
  | expStrobe (db : Nibble) (bt rs : Bit)
  /-- EXP_SETTLE_RELEASE, a payload with EN = 0 of a nibble transfer, R85. -/
  | expSettleRelease (db : Nibble) (bt rs : Bit)
  /-- EXP_BACKLIGHT_ONLY, a payload without data bits, R85. -/
  | expBacklightOnly (bt : Bit)
  deriving DecidableEq, Repr

/-- One action of a script (00_scope.md R13): `w v` writes the byte `v` to the expander, `d t` waits at least `t` ms. -/
inductive ScriptAction where
  | w (v : Byte)
  | d (t : Nat)
  deriving DecidableEq, Repr

/-- A script is a finite list of actions (00_scope.md R13). -/
abbrev Script := List ScriptAction

/-- The instruction an action stands for: `W v` is EXP_WRITE (40_encoder.md R113) and `D t` is DELAY (R111). -/
def ScriptAction.instr : ScriptAction → Instr
  | .w v => .expWrite v
  | .d t => .delay t

/-- A script as the sequencer holds it. -/
def Script.instrs (sc : Script) : List Instr := sc.map ScriptAction.instr

end Sys2Proof
end

