-- ==== Sys2Proof/WellFormed.lean ====
section
/-! DEFINITION. Which instructions are well formed: those whose operands their encoding can hold. -/
namespace Sys2Proof

/-- Why an instruction is ill formed. -/
inductive IllFormed where
  /-- RSV with an `op` that is not reserved (42_runtime_ops.md R176: REQ bits 10:8 = 1xx). -/
  | opNotReserved
  /-- SEND_NIBBLE with an operand whose bits 3:0 are not 0: the pattern holds bits 7:4 only (40_encoder.md R114). -/
  | nibbleLowBits
  /-- SEND_NIBBLE with control bits other than RS: the pattern holds bit 0 only (R114). -/
  | controlHighBits
  deriving DecidableEq, Repr

/-- The first check an instruction fails, if any. -/
def Instr.illFormed? : Instr → Option IllFormed
  | .wcmd _ => none
  | .wchr _ => none
  | .line1 _ => none
  | .line2 _ => none
  | .rsv op _ => if op.getLsbD 2 then none else some .opNotReserved
  | .expWrite _ => none
  | .delay _ => none
  | .blWrite => none
  | .sendNibble n8 rs =>
    if n8 &&& 0x0F#8 ≠ 0#8 then some .nibbleLowBits
    else if rs &&& 0xFE#8 ≠ 0#8 then some .controlHighBits
    else none
  | .sendByte _ _ => none
  | .sendCommand _ => none
  | .sendCharacter _ => none
  | .initS1 => none
  | .initS2 => none
  | .initS3 => none
  | .initS4 => none
  | .initS5 => none
  | .initS6 => none
  | .initS7 => none
  | .irClear => none
  | .irHome => none
  | .irEntryMode => none
  | .irDisplayControl _ => none
  | .irCursorRight => none
  | .irFunctionSet => none
  | .irCommand _ => none
  | .irData _ => none
  | .irForceNibble => none
  | .expStrobe _ _ _ => none
  | .expSettleRelease _ _ _ => none
  | .expBacklightOnly _ => none

/-- An instruction whose operands its encoding can hold. -/
abbrev WellFormed (i : Instr) : Prop := i.illFormed? = none

end Sys2Proof
end

