-- ==== Sys2Proof/Decode.lean ====
section
/-! DEFINITION. The decoder, total on any word of any format, and the encoder written from the same tables
(30_encoding.md R81 to R90, spec/opcode_table.json). -/
namespace Sys2Proof

/-- Where a word stands. The table's formats overlap bit for bit (REQ 0x001 is WCMD, IR 0x001 is the Clear word), so a
word is read by the place it stands at: the request port, a controller word, a payload, or a call inside a script. Only
`req` is decoded by the block; "the internal operations are not selected by any encoding" (30_encoding.md R88), so each
of them has a place of its own here. -/
inductive Format where
  /-- REQ, 11 bits, the request port (R81). -/
  | req
  /-- IR, 9 bits, a controller word the block emits itself (R87). -/
  | irOwn
  /-- IR, 9 bits, a controller word carried for WCMD or WCHR (R172, R173). -/
  | irPass
  /-- EXP, 8 bits, a payload of a nibble transfer (R85). -/
  | exp
  /-- EXP, 8 bits, the backlight-only payload (R85, R119). -/
  | expBacklight
  /-- EXP, 8 bits, the stand-alone nibble of stage 2, the pattern of the default `FORCE_NIBBLE` (R142). The row fixes bits
  7:4 only; that bit 0 (RS) may be 1 at this place is the model's choice (log 27). -/
  | expForce
  /-- INTERNAL, the operand of EXP_WRITE. -/
  | expWrite
  /-- INTERNAL, the operand of DELAY, a natural number of any width. -/
  | delay
  /-- INTERNAL, the pattern of BL_WRITE. -/
  | blWrite
  /-- INTERNAL, the pattern of SEND_NIBBLE. -/
  | sendNibble
  /-- INTERNAL, the pattern of SEND_BYTE: its two nibbles only, so the control operand stands beside it. -/
  | sendByte (rs : Byte)
  /-- INTERNAL, the pattern of SEND_COMMAND, 9 bits with RS = 0. -/
  | sendCommand
  /-- INTERNAL, the pattern of SEND_CHARACTER, 9 bits with RS = 1. -/
  | sendCharacter
  /-- INTERNAL, the value of the `stage` register, 3 bits. -/
  | initStage
  deriving DecidableEq, Repr

/-- How many bits a word of a format has; none for DELAY's number. -/
def Format.width : Format → Option Nat
  | .req => some 11
  | .irOwn => some 9
  | .irPass => some 9
  | .exp => some 8
  | .expBacklight => some 8
  | .expForce => some 8
  | .expWrite => some 8
  | .delay => none
  | .blWrite => some 8
  | .sendNibble => some 8
  | .sendByte _ => some 8
  | .sendCommand => some 9
  | .sendCharacter => some 9
  | .initStage => some 3

/-- Why a word is rejected. -/
inductive DecodeError where
  /-- The number has bits above the format's width. -/
  | tooWide
  /-- A constant bit of the row's pattern differs. -/
  | fixedBits
  /-- The R/W bit is set: "No payload the block emits has bit 1 set" (30_encoding.md R85, R89). -/
  | readWriteSet
  /-- The word is none of those the block emits itself (R87). -/
  | notOwnWord
  /-- RS is not the one the row fixes. -/
  | registerSelect
  /-- The stage register holds 0, which names no stage (10_state.md R22). -/
  | noStage
  deriving DecidableEq, Repr

/-- The request word's fields: `op` in bits 10:8 and `data` in bits 7:0 (30_encoding.md R81). -/
def reqOp (w : ReqWord) : BitVec 3 := w.extractLsb' 8 3

/-- The request word's operand, bits 7:0 (30_encoding.md R81). -/
def reqData (w : ReqWord) : Byte := w.extractLsb' 0 8

/-- A request word from its fields (30_encoding.md R81). -/
def reqWord (op : BitVec 3) (data : Byte) : ReqWord := (op.setWidth 11 <<< 8) ||| data.setWidth 11

/-- The block's own decoder: every 11-bit word selects an operation (30_encoding.md R82, R88, R89). -/
def decodeReq (w : ReqWord) : Instr :=
  if reqOp w = 0#3 then .wcmd (reqData w)
  else if reqOp w = 1#3 then .wchr (reqData w)
  else if reqOp w = 2#3 then .line1 (reqData w)
  else if reqOp w = 3#3 then .line2 (reqData w)
  else .rsv (reqOp w) (reqData w)

/-- Whether a request word has a reserved `op`, 0b100 to 0b111 (30_encoding.md R82, R89). -/
def reqReserved (w : ReqWord) : Bool := w.getLsbD 10

/-- The stage a value of the `stage` register names (10_state.md R22). -/
def decodeStage (n : StageNum) : Option Instr :=
  if n = 1#3 then some .initS1
  else if n = 2#3 then some .initS2
  else if n = 3#3 then some .initS3
  else if n = 4#3 then some .initS4
  else if n = 5#3 then some .initS5
  else if n = 6#3 then some .initS6
  else if n = 7#3 then some .initS7
  else none

/-- The controller words the block emits itself (30_encoding.md R87). -/
def decodeOwnWord (w : BitVec 9) : Except DecodeError Instr :=
  if w = 0x001#9 then .ok .irClear
  else if w = 0x002#9 then .ok .irHome
  else if w = 0x006#9 then .ok .irEntryMode
  else if w &&& 0x1FC#9 = 0x00C#9 then .ok (.irDisplayControl (w.extractLsb' 0 2))
  else if w = 0x014#9 then .ok .irCursorRight
  else if w = 0x028#9 then .ok .irFunctionSet
  else .error .notOwnWord

/-- A payload of a nibble transfer, by its EN bit (30_encoding.md R85). -/
def decodePayload (b : Byte) : Except DecodeError Instr :=
  if b.getLsbD 1 then .error .readWriteSet
  else if b.getLsbD 2 then .ok (.expStrobe (b.extractLsb' 4 4) (b.extractLsb' 3 1) (b.extractLsb' 0 1))
  else .ok (.expSettleRelease (b.extractLsb' 4 4) (b.extractLsb' 3 1) (b.extractLsb' 0 1))

/-- Reads a number that fits the format's width. At the place `expForce` bits 3 (BT), 2 (EN) and 0 (RS) are ignored, so that
0x21, 0x25, 0x29 and 0x2D read as IR_FORCE_NIBBLE too, whose meaning sends RS = 0: the row fixes bits 7:4 only (30_encoding.md
R87), and this reading is the model's choice (log 27). -/
def decodeFitting : Format → Nat → Except DecodeError Instr
  | .req, w => .ok (decodeReq (BitVec.ofNat 11 w))
  | .irOwn, w => decodeOwnWord (BitVec.ofNat 9 w)
  | .irPass, w =>
    let b := BitVec.ofNat 9 w
    if b.getLsbD 8 then .ok (.irData (b.extractLsb' 0 8)) else .ok (.irCommand (b.extractLsb' 0 8))
  | .exp, w => decodePayload (BitVec.ofNat 8 w)
  | .expBacklight, w =>
    let b := BitVec.ofNat 8 w
    if b &&& 0xF7#8 = 0#8 then .ok (.expBacklightOnly (b.extractLsb' 3 1)) else .error .fixedBits
  | .expForce, w =>
    let b := BitVec.ofNat 8 w
    if b.getLsbD 1 then .error .readWriteSet
    else if b &&& 0xF0#8 = 0x20#8 then .ok .irForceNibble else .error .fixedBits
  | .expWrite, w => .ok (.expWrite (BitVec.ofNat 8 w))
  | .delay, w => .ok (.delay w)
  | .blWrite, w => if BitVec.ofNat 8 w &&& 0xF7#8 = 0#8 then .ok .blWrite else .error .fixedBits
  | .sendNibble, w =>
    let b := BitVec.ofNat 8 w
    if b.getLsbD 1 then .error .readWriteSet else .ok (.sendNibble (b &&& 0xF0#8) (b &&& 0x01#8))
  | .sendByte rs, w => .ok (.sendByte (BitVec.ofNat 8 w) rs)
  | .sendCommand, w =>
    let b := BitVec.ofNat 9 w
    if b.getLsbD 8 then .error .registerSelect else .ok (.sendCommand (b.extractLsb' 0 8))
  | .sendCharacter, w =>
    let b := BitVec.ofNat 9 w
    if b.getLsbD 8 then .ok (.sendCharacter (b.extractLsb' 0 8)) else .error .registerSelect
  | .initStage, w =>
    match decodeStage (BitVec.ofNat 3 w) with
    | some i => .ok i
    | none => .error .noStage

/-- The decoder: the instruction a number stands for at a place, or the name of what is wrong with it. -/
def decode (f : Format) (w : Nat) : Except DecodeError Instr :=
  match f.width with
  | some n => if w < 2 ^ n then decodeFitting f w else .error .tooWide
  | none => decodeFitting f w

/-- The number that bytes hold when they are numbered as spec/opcode_table.json numbers them, first byte lowest. -/
def wordOfBytes : List Byte → Nat
  | [] => 0
  | b :: rest => b.toNat + 256 * wordOfBytes rest

/-- The decoder over bytes, total on any list of them. -/
def decodeBytes (f : Format) (bytes : List Byte) : Except DecodeError Instr := decode f (wordOfBytes bytes)

/-- A payload from its fields, `{nib[3:0], BT, EN, RW, RS}` with RW = 0 (20_memory.md R55, 30_encoding.md R85). -/
def payloadWord (db : Nibble) (bt en rs : Bit) : Byte :=
  (db.setWidth 8 <<< 4) ||| (bt.setWidth 8 <<< 3) ||| (en.setWidth 8 <<< 2) ||| rs.setWidth 8

/-- The encoder: the place and the number of an instruction. BL_WRITE's bit b and SEND_NIBBLE's bits b and e are no
operands (`bl` and the encoder drive them), and they are written as 0. -/
def encode : Instr → Format × Nat
  | .wcmd data => (.req, (reqWord 0#3 data).toNat)
  | .wchr data => (.req, (reqWord 1#3 data).toNat)
  | .line1 data => (.req, (reqWord 2#3 data).toNat)
  | .line2 data => (.req, (reqWord 3#3 data).toNat)
  | .rsv op data => (.req, (reqWord op data).toNat)
  | .expWrite v => (.expWrite, v.toNat)
  | .delay t => (.delay, t)
  | .blWrite => (.blWrite, 0x00)
  | .sendNibble n8 rs => (.sendNibble, (n8 &&& 0xF0#8 ||| rs &&& 0x01#8).toNat)
  | .sendByte value rs => (.sendByte rs, value.toNat)
  | .sendCommand value => (.sendCommand, (0x000#9 ||| value.setWidth 9).toNat)
  | .sendCharacter value => (.sendCharacter, (0x100#9 ||| value.setWidth 9).toNat)
  | .initS1 => (.initStage, 1)
  | .initS2 => (.initStage, 2)
  | .initS3 => (.initStage, 3)
  | .initS4 => (.initStage, 4)
  | .initS5 => (.initStage, 5)
  | .initS6 => (.initStage, 6)
  | .initS7 => (.initStage, 7)
  | .irClear => (.irOwn, 0x001)
  | .irHome => (.irOwn, 0x002)
  | .irEntryMode => (.irOwn, 0x006)
  | .irDisplayControl cb => (.irOwn, (0x00C#9 ||| cb.setWidth 9).toNat)
  | .irCursorRight => (.irOwn, 0x014)
  | .irFunctionSet => (.irOwn, 0x028)
  | .irCommand d => (.irPass, (0x000#9 ||| d.setWidth 9).toNat)
  | .irData d => (.irPass, (0x100#9 ||| d.setWidth 9).toNat)
  | .irForceNibble => (.expForce, 0x20)
  | .expStrobe db bt rs => (.exp, (payloadWord db bt 1#1 rs).toNat)
  | .expSettleRelease db bt rs => (.exp, (payloadWord db bt 0#1 rs).toNat)
  | .expBacklightOnly bt => (.expBacklight, (payloadWord 0#4 bt 0#1 0#1).toNat)

/-- The first of several places at which a number decodes. -/
def firstDecoding (w : Nat) : List Format → Option Instr
  | [] => none
  | f :: rest =>
    match decode f w with
    | .ok i => some i
    | .error _ => firstDecoding w rest

/-- The places tried for a word of a given number of bits, when nothing but its size is known: 11 bits are a request, 9
bits a controller word, 3 bits a stage. A size in whole bytes does not say which format a word has, so there the row with
the most constant bits comes first: a controller word the block emits itself, then a request; a payload, then a stage
(log 10). A byte 0x2n with R/W = 0 is so read as IR_FORCE_NIBBLE and not as EXP_STROBE or EXP_SETTLE_RELEASE (log 27). -/
def formatsOfSize (nbits : Nat) : List Format :=
  if nbits = 11 then [.req]
  else if nbits = 9 then [.irOwn, .irPass]
  else if nbits = 3 then [.initStage]
  else if nbits = 16 then [.irOwn, .req]
  else if nbits = 8 then [.expBacklight, .expForce, .exp, .initStage]
  else []

/-- The instruction the decoder reads from a word numbered as spec/opcode_table.json numbers its bits. -/
def decodeTableWord (nbits w : Nat) : Option Instr := firstDecoding w (formatsOfSize nbits)

end Sys2Proof
end

