-- ==== Sys2Proof/Machine/Operands.lean ====
section
/-! DEFINITION. The constants of 00_scope.md R9, the payloads of 30_encoding.md R85 and every script the block runs
(40_encoder.md, 41_init_fsm.md, 42_runtime_ops.md). -/
namespace Sys2Proof.Machine

/-! ## Constants of 00_scope.md R9 -/

/-- `FORCE_COUNT`. -/
def forceCount : Nat := 3
/-- `CMD_FUNCTION_SET`: 4-bit, 2-line, 5x8 font (30_encoding.md R87). -/
def cmdFunctionSet : Byte := 0x28#8
/-- `CMD_ENTRY_MODE`: increment, no display shift (R87). -/
def cmdEntryMode : Byte := 0x06#8
/-- `CMD_CLEAR` (R87). -/
def cmdClear : Byte := 0x01#8
/-- `CMD_HOME` (R87). -/
def cmdHome : Byte := 0x02#8
/-- `CMD_CURSOR_RIGHT`: move the cursor right, no display shift (R87). -/
def cmdCursorRight : Byte := 0x14#8
/-- `LINE2_SHIFTS`. -/
def line2Shifts : Nat := 40
/-- `BL_RESET` (92_eei_decisions.md D8). -/
def blReset : Bit := 0#1
/-- `BL_ON` (92_eei_decisions.md D9). -/
def blOn : Bit := 1#1
/-- `T_POWER`, in ms like every delay here. -/
def tPower : Nat := 600
/-- `T_FORCE`. -/
def tForce : Nat := 5
/-- `T_FUNCSET`. -/
def tFuncset : Nat := 150
/-- `T_DISPCTL`. -/
def tDispctl : Nat := 5
/-- `T_ENTRY`. -/
def tEntry : Nat := 5
/-- `T_BACKLIGHT`. -/
def tBacklight : Nat := 5
/-- `T_EN_HIGH`. -/
def tEnHigh : Nat := 1
/-- `T_EN_HOLD`. -/
def tEnHold : Nat := 1

/-- The arguments at the defaults R9 states, with the open address left free. -/
def defaultParams : Params where
  expanderAddr7 := Config.expanderAddr7
  forceNibble := 0x2#4
  cmdDisplayControl := 0x0C#8
  tSetup := 0
  tS1After := 0
  tClear := 0
  tHome := 0

/-! ## Payloads -/

/-- `bl << 3`, the backlight bit in its place `BIT_BT` (20_memory.md R55). -/
def backlightBit (bl : Bit) : Byte := bl.zeroExtend 8 <<< 3

/-- The settle and release payload of a nibble transfer: EN = 0, R/W = 0, and only bits 7:4 of `n8` and bit 0 of `rs`
are taken (40_encoder.md R114). -/
def settlePayload (bl : Bit) (n8 rs : Byte) : Byte := (n8 &&& 0xF0#8) ||| backlightBit bl ||| (rs &&& 0x01#8)

/-- The strobe payload: the settle payload with EN = 1 (40_encoder.md R114). -/
def strobePayload (bl : Bit) (n8 rs : Byte) : Byte := settlePayload bl n8 rs ||| 0x04#8

/-- A nibble moved to the transfer position, bits 7:4 (20_memory.md R56). -/
def nibbleInPlace (n : Nibble) : Byte := n.zeroExtend 8 <<< 4

/-- RS for a command: the instruction register (30_encoding.md R83). -/
def rsCommand : Byte := 0#8

/-- RS for a character: the data register (30_encoding.md R83). -/
def rsCharacter : Byte := 1#8

/-- The word of IR_DISPLAY_CONTROL: display on, cursor and blink as the operand says (30_encoding.md R86, R87). -/
def displayControlWord (cb : BitVec 2) : Byte := 0x0C#8 ||| cb.setWidth 8

/-! ## Scripts -/

/-- `[D t]`; `D 0` is the empty script (00_scope.md R13). -/
def wait (t : Nat) : Script := if t = 0 then [] else [.d t]

/-- `nibScript(n8, rs)` (40_encoder.md R114). -/
def nibScript (p : Params) (bl : Bit) (n8 rs : Byte) : Script :=
  [.w (settlePayload bl n8 rs)] ++ wait p.tSetup
    ++ [.w (strobePayload bl n8 rs)] ++ wait tEnHigh
    ++ [.w (settlePayload bl n8 rs)] ++ wait tEnHold

/-- `byteScript(value, rs)`: high nibble, then low nibble (40_encoder.md R115, 20_memory.md R54). -/
def byteScript (p : Params) (bl : Bit) (value rs : Byte) : Script :=
  nibScript p bl (value &&& 0xF0#8) rs ++ nibScript p bl ((value <<< 4) &&& 0xF0#8) rs

/-- The backlight-only write (40_encoder.md R119). -/
def backlightScript (bl : Bit) : Script := [.w (backlightBit bl)]

/-- `repeat(n, s)` (00_scope.md R13). -/
def repeatScript (n : Nat) (sc : Script) : Script := (List.replicate n sc).flatten

/-- `S1`, PowerSettle (41_init_fsm.md R141). -/
def powerSettleScript (p : Params) (bl : Bit) : Script :=
  wait tPower ++ backlightScript bl ++ wait p.tS1After

/-- `S2`, ForceFourBit (41_init_fsm.md R142). -/
def forceFourBitScript (p : Params) (bl : Bit) : Script :=
  repeatScript forceCount (nibScript p bl (nibbleInPlace p.forceNibble) rsCommand ++ wait tForce)

/-- `S3`, FunctionSet (41_init_fsm.md R143). -/
def functionSetScript (p : Params) (bl : Bit) : Script := byteScript p bl cmdFunctionSet rsCommand ++ wait tFuncset

/-- `S4`, DisplayControl (41_init_fsm.md R144). -/
def displayControlScript (p : Params) (bl : Bit) : Script :=
  byteScript p bl p.cmdDisplayControl rsCommand ++ wait tDispctl

/-- `S5`, EntryModeSet (41_init_fsm.md R145). -/
def entryModeScript (p : Params) (bl : Bit) : Script := byteScript p bl cmdEntryMode rsCommand ++ wait tEntry

/-- `S6`, BacklightOn (41_init_fsm.md R146). -/
def backlightOnScript (bl : Bit) : Script := backlightScript bl ++ wait tBacklight

/-- `S7`, ClearDisplay (41_init_fsm.md R147). -/
def clearDisplayScript (p : Params) (bl : Bit) : Script := byteScript p bl cmdClear rsCommand ++ wait p.tClear

/-- The script of CURSOR_LINE1 (42_runtime_ops.md R174). -/
def line1Script (p : Params) (bl : Bit) : Script := byteScript p bl cmdHome rsCommand ++ wait p.tHome

/-- The script of CURSOR_LINE2 (42_runtime_ops.md R175). -/
def line2Script (p : Params) (bl : Bit) : Script :=
  byteScript p bl cmdHome rsCommand ++ wait p.tHome
    ++ repeatScript line2Shifts (byteScript p bl cmdCursorRight rsCommand)

/-! ## What a script holds -/

/-- The payloads a script writes, in order. -/
def scriptWrites : Script → List Byte
  | [] => []
  | .w v :: rest => v :: scriptWrites rest
  | .d _ :: rest => scriptWrites rest

/-- The sum of a script's delays, in ms. -/
def scriptDelay : Script → Nat
  | [] => 0
  | .w _ :: rest => scriptDelay rest
  | .d t :: rest => t + scriptDelay rest

end Sys2Proof.Machine
end

