-- ==== Sys2Proof/Machine/State.lean ====
section
/-! DEFINITION. The state, plain data: everything 10_state.md gives the block, the trace, the build's arguments and the
ports' inputs; and the state right after reset. -/
namespace Sys2Proof.Machine

/-- `phase` (10_state.md R21). The code 0b11, which no rule writes, is left out of the type. -/
inductive Phase where
  | init
  | ready
  | failed
  deriving DecidableEq, Repr

/-- The answer a finished transport call gave (20_memory.md R52). -/
inductive Ack where
  | ok
  | fail
  deriving DecidableEq, Repr

/-- The `kind` of a response (30_encoding.md R84). -/
inductive Kind where
  /-- 0: the end of an initialization. -/
  | initEnd
  /-- 1: the end of a host request. -/
  | request
  deriving DecidableEq, Repr

/-- The `status` of a response (30_encoding.md R84, 60_exceptions.md R200). -/
inductive Status where
  | ok
  | busFail
  | notReady
  | illegalOp
  deriving DecidableEq, Repr

/-- A response before it is coded as an RSP word (30_encoding.md R84). -/
structure Response where
  kind : Kind
  status : Status
  info : BitVec 3
  deriving DecidableEq, Repr

/-- An event of the trace (20_memory.md R60): a write with the address it went to and its answer, a delay with its
minimum, or a response. -/
inductive Event where
  | w (addr : DevAddr) (v : Byte) (ack : Ack)
  | d (t : Nat)
  | r (rsp : Response)
  deriving DecidableEq, Repr

/-- What the host does at the request port and the reset input while the sequencer stands between two actions
(92_eei_decisions.md D2). -/
inductive HostMove where
  /-- Nothing: the sequencer takes its step. -/
  | idle
  /-- Presents a request word, which stays presented until it is accepted (42_runtime_ops.md R170). -/
  | request (word : ReqWord)
  /-- Asserts the reset input (70_reset_and_hazards.md R230). -/
  | reset
  deriving DecidableEq, Repr

/-- What the transport does with one call (20_memory.md R52). -/
inductive TransportAnswer where
  | ok
  | fail
  /-- It never answers (70_reset_and_hazards.md R238). -/
  | silent
  deriving DecidableEq, Repr

/-- What the delay primitive does with one call (40_encoder.md R111). -/
inductive DelayAnswer where
  | elapsed
  /-- It never returns (70_reset_and_hazards.md R238). -/
  | never
  deriving DecidableEq, Repr

/-- The answers a port will give: `queue` first, in order, and then `rest` for ever. -/
structure Feed (α : Type) where
  queue : List α
  rest : α
  deriving DecidableEq, Repr

/-- The state. `phase`, `stage`, `bl`, `failStage`, `busy`, `seq` are the block's (10_state.md R29), `exp` and `trace` are
observable environment state (R31, 20_memory.md R60), `cfg` carries the build's arguments and no step writes it
(00_scope.md R9), `host`, `transport` and `delays` are the ports' inputs, and `draws` is the model's own counter of free
values drawn. -/
structure State where
  cfg : Params
  phase : Phase
  stage : StageNum
  bl : Bit
  failStage : StageNum
  busy : Bool
  seq : List Instr
  exp : Byte
  trace : List Event
  host : List HostMove
  transport : Feed TransportAnswer
  delays : Feed DelayAnswer
  draws : Nat
  deriving DecidableEq, Repr

/-- Why the machine stops. -/
inductive Fault where
  /-- Raised by every expander write when the transport never answers: the sequencer is "stuck for ever"
  (70_reset_and_hazards.md R238). Safe: no step is added. -/
  | transportSilent
  /-- Raised by every delay when the delay port never returns (R238). Safe: no step is added. -/
  | delayNeverEnds
  /-- Raised by `step` in a state with `stage` = 0 in INIT or `stage` ≠ 0 outside INIT, and by an init stage run outside
  INIT, which would make one: "fault if ever reached" (93_implementation_defined.md I13). Safe: no rule produces it. -/
  | illegalStage
  deriving DecidableEq, Repr

/-- What the model gives no meaning. -/
inductive Refusal where
  /-- An instruction without a meaning; no arm of `exec` raises it. Safe. -/
  | notModelled (mnemonic : String)
  /-- Raised by `step` when the reset input is asserted while the block is not quiescent: "A model refuses such a reset"
  (70_reset_and_hazards.md R230, 92_eei_decisions.md D17). Safe: such runs cannot be stated. -/
  | resetNotQuiescent
  deriving DecidableEq, Repr

/-- The state right after reset (10_state.md R34, 70_reset_and_hazards.md R230), with a silent host, a transport that
answers OK and a delay port that returns. -/
def State.reset : State where
  cfg := defaultParams
  phase := .init
  stage := 1#3
  bl := blReset
  failStage := 0#3
  busy := false
  seq := Script.instrs (powerSettleScript defaultParams blReset)
  exp := Config.expAtReset 0
  trace := []
  host := []
  transport := ⟨[], .ok⟩
  delays := ⟨[], .elapsed⟩
  draws := 1

end Sys2Proof.Machine
end

