-- ==== Sys2Proof/Machine/Flags.lean ====
section
/-! DEFINITION. The block has no flags (10_state.md R28). Its outcome signals are the responses, coded as RSP words
(30_encoding.md R84, 60_exceptions.md R200), and the status port (92_eei_decisions.md D2). -/
namespace Sys2Proof.Machine

/-- The `kind` bit (30_encoding.md R84). -/
def kindCode : Kind → Bit
  | .initEnd => 0#1
  | .request => 1#1

/-- The `status` field (30_encoding.md R84, 60_exceptions.md R200). -/
def statusCode : Status → BitVec 2
  | .ok => 0b00#2
  | .busFail => 0b01#2
  | .notReady => 0b10#2
  | .illegalOp => 0b11#2

/-- The RSP word of a response: `kind` in bit 5, `status` in bits 4:3, `info` in bits 2:0 (30_encoding.md R84). -/
def responseWord (r : Response) : RspWord :=
  ((kindCode r.kind).setWidth 6 <<< 5) ||| ((statusCode r.status).setWidth 6 <<< 3) ||| r.info.setWidth 6

/-- The numeric encoding of `phase` (10_state.md R21). -/
def phaseCode : Phase → BitVec 2
  | .init => 0b00#2
  | .ready => 0b01#2
  | .failed => 0b10#2

/-- What the host reads on the status port (92_eei_decisions.md D2, 60_exceptions.md R212). -/
structure StatusPort where
  phase : BitVec 2
  stage : StageNum
  bl : Bit
  failStage : StageNum
  deriving DecidableEq, Repr

/-- Reading the status port changes nothing (10_state.md R29). -/
def statusPort (s : State) : StatusPort := ⟨phaseCode s.phase, s.stage, s.bl, s.failStage⟩

/-- `respond(kind=0, OK, 0)` (41_init_fsm.md R149). -/
def initOk : Response := ⟨.initEnd, .ok, 0#3⟩

/-- `respond(kind=0, BUS_FAIL, s)` (41_init_fsm.md R151). -/
def initBusFail (stage : StageNum) : Response := ⟨.initEnd, .busFail, stage⟩

/-- A request's response: `info` is 0 (30_encoding.md R84). -/
def requestDone (st : Status) : Response := ⟨.request, st, 0#3⟩

end Sys2Proof.Machine
end

