-- ==== Sys2Proof/Machine/Ops.lean ====
section
/-! DEFINITION. The shared operations: the two ports, running a script, the failure paths, accepting a request, entering a
stage, the ends of an operation and reset. -/
namespace Sys2Proof.Machine

/-- What a step or a meaning answers. -/
abbrev Result := Host.Outcome State Fault Refusal

/-! ## Events and ports -/

/-- Appends one event to the trace (20_memory.md R60). -/
def emit (e : Event) (s : State) : State := { s with trace := s.trace ++ [e] }

/-- `respond(status, info)`: one word on the response port (30_encoding.md R84). -/
def respond (r : Response) (s : State) : State := emit (.r r) s

/-- The next answer of a port. -/
def Feed.head {α : Type} (f : Feed α) : α :=
  match f.queue with
  | [] => f.rest
  | a :: _ => a

/-- A port's answers after one of them is used. -/
def Feed.tail {α : Type} (f : Feed α) : Feed α :=
  match f.queue with
  | [] => f
  | _ :: q => { f with queue := q }

/-- How a script, or one action of it, ends (40_encoder.md R110). -/
inductive RunResult where
  | ok (s : State)
  /-- The k-th write was answered FAIL. -/
  | busFail (k : Nat) (s : State)
  /-- A port never answered. -/
  | stuck (f : Fault)
  deriving DecidableEq, Repr

/-- `ExpWrite(v)` as the k-th write of a script: one transport call. After a FAIL the pins hold the old byte or the
attempted one, a free value (20_memory.md R52). -/
def expWrite (k : Nat) (v : Byte) (s : State) : RunResult :=
  match s.transport.head with
  | .ok => .ok (emit (.w s.cfg.expanderAddr7 v .ok) { s with exp := v, transport := s.transport.tail })
  | .fail =>
    .busFail k (emit (.w s.cfg.expanderAddr7 v .fail)
      { s with exp := if Config.failedWriteLatched s.draws then v else s.exp
               transport := s.transport.tail
               draws := s.draws + 1 })
  | .silent => .stuck .transportSilent

/-- `Delay(t)`: no event for 0, otherwise `D(t)` and a wait of at least `t` ms (40_encoder.md R111). -/
def delayFor (t : Nat) (s : State) : RunResult :=
  if t = 0 then .ok s
  else
    match s.delays.head with
    | .elapsed => .ok (emit (.d t) { s with delays := s.delays.tail })
    | .never => .stuck .delayNeverEnds

/-- `run(script)` after `k` writes of it (40_encoder.md R110): one action at a time, in order, to the end or to the first
write that fails. -/
def runFrom : Nat → Script → State → RunResult
  | _, [], s => .ok s
  | k, .w v :: rest, s =>
    match expWrite (k + 1) v s with
    | .ok s' => runFrom (k + 1) rest s'
    | .busFail k' s' => .busFail k' s'
    | .stuck f => .stuck f
  | k, .d t :: rest, s =>
    match delayFor t s with
    | .ok s' => runFrom k rest s'
    | .busFail k' s' => .busFail k' s'
    | .stuck f => .stuck f

/-- `run(script)` (40_encoder.md R110). -/
def run (sc : Script) (s : State) : RunResult := runFrom 0 sc s

/-! ## The failure paths: what the block does in place of taking an exception (60_exceptions.md R205) -/

/-- The answer a request gets outside READY (42_runtime_ops.md R170): a reserved op is decided first. -/
def answerOutsideReady (w : ReqWord) : Response := requestDone (if reqReserved w then .illegalOp else .notReady)

/-- What goes out before the failure response of an initialization. A request that stands presented as that response falls
due is answered at once, and the order of the two responses is a free value (60_exceptions.md R204, log 15): answered now,
or left presented and answered in FAILED. -/
def beforeFailure (s : State) : State :=
  match s.host with
  | [] => s
  | .idle :: _ => s
  | .reset :: _ => s
  | .request w :: later =>
    if s.busy then s
    else if Config.initResponseFirst s.draws then { s with draws := s.draws + 1 }
    else respond (answerOutsideReady w) { s with host := later, draws := s.draws + 1 }

/-- Initialization failure (41_init_fsm.md R151): no later action, FAILED, the stage recorded and reported. -/
def failInit (s : State) : State :=
  respond (initBusFail s.stage) { s with phase := .failed, failStage := s.stage, stage := 0#3, seq := [] }

/-- Initialization failure, with the answer to a request that stands presented before or after it. -/
def initFailure (s : State) : State := failInit (beforeFailure s)

/-- Runtime failure (42_runtime_ops.md R171): no later action, `busy` cleared, reported; `phase` and `bl` stay. -/
def runtimeFailure (s : State) : State :=
  respond (requestDone .busFail) { s with busy := false, seq := [] }

/-- `raise BusFail` passes control to the enclosing operation's failure path (40_encoder.md R112). Where no operation
encloses the write, which no rule makes happen, the script stops and nothing is owed. -/
def busFailure (s : State) : State :=
  if s.phase = .init then initFailure s
  else if s.busy then runtimeFailure s
  else { s with seq := [] }

/-- The outcome of an instruction that runs a script. -/
def finish : RunResult → Result
  | .ok s => .next s
  | .busFail _ s => .next (busFailure s)
  | .stuck f => .fault f

/-- An instruction whose pseudocode is `run(script)` (40_encoder.md R114 to R119). -/
def runScript (sc : Script) (s : State) : Result := finish (run sc s)

/-! ## Requests (42_runtime_ops.md R170) -/

/-- A request while `busy` = 1 is not accepted: it stays presented. -/
def keepPresented (w : ReqWord) (s : State) : State := { s with host := .request w :: s.host }

/-- Starts an accepted request: `busy` is set and the sequencer holds its script. -/
def startRequest (sc : Script) (s : State) : State := { s with busy := true, seq := sc.instrs }

/-- The request `w`, whose operation is the script `sc`. -/
def acceptRequest (w : ReqWord) (sc : Script) (s : State) : Result :=
  if s.busy then .next (keepPresented w s)
  else if s.phase ≠ .ready then .next (respond (requestDone .notReady) s)
  else .next (startRequest sc s)

/-- The request `w` with a reserved op: ILLEGAL_OP in every phase (42_runtime_ops.md R176). -/
def acceptReserved (w : ReqWord) (s : State) : Result :=
  if s.busy then .next (keepPresented w s)
  else .next (respond (requestDone .illegalOp) s)

/-- The end of a request whose script ran to its end: `busy` is cleared, then OK is reported (R170). -/
def completeRequest (s : State) : State := respond (requestDone .ok) { s with busy := false }

/-! ## Initialization (41_init_fsm.md) -/

/-- Enters a stage: `stage` and `seq` are set (R148), and `bl` to the value the stage's script is made with (R146). The
stages exist in INIT only (10_state.md R22). DESIGN CHOICE (log 26): a stage instruction placed in INIT out of order, or
while a stage's script is unfinished, enters its stage all the same and drops what was left of `seq`; the sequencer itself
enters a stage only when the script of the one before is done (R148). -/
def enterStage (n : StageNum) (bl : Bit) (sc : Script) (s : State) : Result :=
  if s.phase = .init then .next { s with stage := n, bl := bl, seq := sc.instrs }
  else .fault .illegalStage

/-- Completion of stage 7 (R149). -/
def completeInit (s : State) : State := respond initOk { s with phase := .ready, stage := 0#3 }

/-- The init-completion response is due: the script of stage 7 has run to its end (R149). -/
abbrev InitEndDue (s : State) : Prop := s.phase = .init ∧ s.stage = 7#3 ∧ s.seq = []

/-- A request that is not reserved stands presented when the init-completion response falls due. Both responses are due
together, and their order is a free value (60_exceptions.md R204). -/
def initEndWithRequest (s : State) : State :=
  if Config.initResponseFirst s.draws then
    respond (requestDone .notReady) (completeInit { s with draws := s.draws + 1 })
  else respond (requestDone .notReady) { s with draws := s.draws + 1 }

/-! ## Reset (70_reset_and_hazards.md R230) -/

/-- Quiescent: no action in progress, no response owed, and READY with `busy` = 0 or FAILED (R242). -/
abbrev Quiescent (s : State) : Prop := s.seq = [] ∧ ((s.phase = .ready ∧ s.busy = false) ∨ s.phase = .failed)

/-- Every field at its value of 10_state.md R34; the pins are unknown again. The trace and the ports go on. -/
def applyReset (s : State) : State :=
  { s with
    phase := .init
    stage := 1#3
    bl := blReset
    failStage := 0#3
    busy := false
    seq := Script.instrs (powerSettleScript s.cfg blReset)
    exp := Config.expAtReset s.draws
    draws := s.draws + 1 }

/-- The reset input: defined when the block is quiescent, refused otherwise (R230). -/
def resetInput (s : State) : Result :=
  if Quiescent s then .next (applyReset s) else .refused .resetNotQuiescent

/-- A `stage` that fits the `phase`: 1 to 7 in INIT and 0 outside it (10_state.md R22). -/
abbrev LegalStage (s : State) : Prop := s.phase = .init ↔ s.stage ≠ 0#3

end Sys2Proof.Machine
end

