-- ==== Sys2Proof/Machine/Encoder.lean ====
section
/-! DEFINITION. The encoder's primitives (40_encoder.md R111 to R119): each runs its script to the end or to its first failed
write. -/
namespace Sys2Proof.Machine

/-- EXP_WRITE (R113). -/
def execExpWrite (v : Byte) (s : State) : Result := runScript [.w v] s

/-- DELAY (R111). -/
def execDelay (t : Nat) (s : State) : Result := runScript [.d t] s

/-- BL_WRITE (R119). -/
def execBlWrite (s : State) : Result := runScript (backlightScript s.bl) s

/-- SEND_NIBBLE (R114). -/
def execSendNibble (n8 rs : Byte) (s : State) : Result := runScript (nibScript s.cfg s.bl n8 rs) s

/-- SEND_BYTE (R115). -/
def execSendByte (value rs : Byte) (s : State) : Result := runScript (byteScript s.cfg s.bl value rs) s

/-- SEND_COMMAND (R116). -/
def execSendCommand (value : Byte) (s : State) : Result := runScript (byteScript s.cfg s.bl value rsCommand) s

/-- SEND_CHARACTER (R117). -/
def execSendCharacter (value : Byte) (s : State) : Result := runScript (byteScript s.cfg s.bl value rsCharacter) s

end Sys2Proof.Machine
end

