-- ==== Sys2Proof/Machine/Requests.lean ====
section
/-! DEFINITION. The requests (42_runtime_ops.md R170 to R176): accepting one loads its script, which the sequencer then
runs action by action. -/
namespace Sys2Proof.Machine

/-- WCMD (R172): SEND_COMMAND of the operand, unchanged and unchecked. -/
def execWcmd (data : Byte) (s : State) : Result :=
  acceptRequest (reqWord 0#3 data) (byteScript s.cfg s.bl data rsCommand) s

/-- WCHR (R173): SEND_CHARACTER of the operand, unchanged. -/
def execWchr (data : Byte) (s : State) : Result :=
  acceptRequest (reqWord 1#3 data) (byteScript s.cfg s.bl data rsCharacter) s

/-- LINE1 (R174): Return-Home; the operand is ignored. -/
def execLine1 (data : Byte) (s : State) : Result :=
  acceptRequest (reqWord 2#3 data) (line1Script s.cfg s.bl) s

/-- LINE2 (R175): Return-Home, then 40 cursor-right commands; the operand is ignored. -/
def execLine2 (data : Byte) (s : State) : Result :=
  acceptRequest (reqWord 3#3 data) (line2Script s.cfg s.bl) s

/-- RSV (R176): ILLEGAL_OP; the operand is ignored. -/
def execRsv (op : BitVec 3) (data : Byte) (s : State) : Result := acceptReserved (reqWord op data) s

end Sys2Proof.Machine
end

