-- ==== Sys2Proof/Machine/Stages.lean ====
section
/-! DEFINITION. The seven init stages (41_init_fsm.md R141 to R147): each sets `stage` and gives the sequencer its script
(R148). -/
namespace Sys2Proof.Machine

/-- INIT_S1, PowerSettle (R141). -/
def execInitS1 (s : State) : Result := enterStage 1#3 s.bl (powerSettleScript s.cfg s.bl) s

/-- INIT_S2, ForceFourBit (R142). -/
def execInitS2 (s : State) : Result := enterStage 2#3 s.bl (forceFourBitScript s.cfg s.bl) s

/-- INIT_S3, FunctionSet (R143). -/
def execInitS3 (s : State) : Result := enterStage 3#3 s.bl (functionSetScript s.cfg s.bl) s

/-- INIT_S4, DisplayControl (R144). -/
def execInitS4 (s : State) : Result := enterStage 4#3 s.bl (displayControlScript s.cfg s.bl) s

/-- INIT_S5, EntryModeSet (R145). -/
def execInitS5 (s : State) : Result := enterStage 5#3 s.bl (entryModeScript s.cfg s.bl) s

/-- INIT_S6, BacklightOn (R146): `bl` becomes `BL_ON` before the stage's write. -/
def execInitS6 (s : State) : Result := enterStage 6#3 blOn (backlightOnScript blOn) s

/-- INIT_S7, ClearDisplay (R147). -/
def execInitS7 (s : State) : Result := enterStage 7#3 s.bl (clearDisplayScript s.cfg s.bl) s

end Sys2Proof.Machine
end

