-- ==== Sys2Proof/Machine/Words.lean ====
section
/-! DEFINITION. The controller words and the payloads (30_encoding.md R85 to R90). A controller word `{RS, d}` goes out as two
nibble transfers, high nibble first (R90, 40_encoder.md R115); a payload is one expander write (40_encoder.md R113). -/
namespace Sys2Proof.Machine

/-- Carries the controller word with the given RS operand (30_encoding.md R90). -/
def carryWord (rs d : Byte) (s : State) : Result := runScript (byteScript s.cfg s.bl d rs) s

/-- Issues one payload (40_encoder.md R113). -/
def issuePayload (v : Byte) (s : State) : Result := runScript [.w v] s

/-- IR_CLEAR (R87). -/
def execIrClear (s : State) : Result := carryWord rsCommand cmdClear s

/-- IR_HOME (R87). -/
def execIrHome (s : State) : Result := carryWord rsCommand cmdHome s

/-- IR_ENTRY_MODE (R87). -/
def execIrEntryMode (s : State) : Result := carryWord rsCommand cmdEntryMode s

/-- IR_DISPLAY_CONTROL (R87). -/
def execIrDisplayControl (cb : BitVec 2) (s : State) : Result := carryWord rsCommand (displayControlWord cb) s

/-- IR_CURSOR_RIGHT (R87). -/
def execIrCursorRight (s : State) : Result := carryWord rsCommand cmdCursorRight s

/-- IR_FUNCTION_SET (R87). -/
def execIrFunctionSet (s : State) : Result := carryWord rsCommand cmdFunctionSet s

/-- IR_COMMAND (42_runtime_ops.md R172). -/
def execIrCommand (d : Byte) (s : State) : Result := carryWord rsCommand d s

/-- IR_DATA (42_runtime_ops.md R173). -/
def execIrData (d : Byte) (s : State) : Result := carryWord rsCharacter d s

/-- IR_FORCE_NIBBLE: one SEND_NIBBLE of `FORCE_NIBBLE` with RS = 0 (41_init_fsm.md R142). -/
def execIrForceNibble (s : State) : Result :=
  runScript (nibScript s.cfg s.bl (nibbleInPlace s.cfg.forceNibble) rsCommand) s

/-- EXP_STROBE (30_encoding.md R85). -/
def execExpStrobe (db : Nibble) (bt rs : Bit) (s : State) : Result := issuePayload (payloadWord db bt 1#1 rs) s

/-- EXP_SETTLE_RELEASE (30_encoding.md R85). -/
def execExpSettleRelease (db : Nibble) (bt rs : Bit) (s : State) : Result := issuePayload (payloadWord db bt 0#1 rs) s

/-- EXP_BACKLIGHT_ONLY (30_encoding.md R85). -/
def execExpBacklightOnly (bt : Bit) (s : State) : Result := issuePayload (payloadWord 0#4 bt 0#1 0#1) s

end Sys2Proof.Machine
end

