-- ==== Sys2Proof/Machine/Dispatch.lean ====
section
/-! DEFINITION. The dispatch: one arm for each constructor of Instr. -/
namespace Sys2Proof.Machine

def exec (i : Instr) (s : State) : Host.Outcome State Fault Refusal :=
  match i with
  | .wcmd data => Sys2Proof.Machine.execWcmd data s
  | .wchr data => Sys2Proof.Machine.execWchr data s
  | .line1 data => Sys2Proof.Machine.execLine1 data s
  | .line2 data => Sys2Proof.Machine.execLine2 data s
  | .rsv op data => Sys2Proof.Machine.execRsv op data s
  | .expWrite v => Sys2Proof.Machine.execExpWrite v s
  | .delay t => Sys2Proof.Machine.execDelay t s
  | .blWrite => Sys2Proof.Machine.execBlWrite s
  | .sendNibble n8 rs => Sys2Proof.Machine.execSendNibble n8 rs s
  | .sendByte value rs => Sys2Proof.Machine.execSendByte value rs s
  | .sendCommand value => Sys2Proof.Machine.execSendCommand value s
  | .sendCharacter value => Sys2Proof.Machine.execSendCharacter value s
  | .initS1 => Sys2Proof.Machine.execInitS1 s
  | .initS2 => Sys2Proof.Machine.execInitS2 s
  | .initS3 => Sys2Proof.Machine.execInitS3 s
  | .initS4 => Sys2Proof.Machine.execInitS4 s
  | .initS5 => Sys2Proof.Machine.execInitS5 s
  | .initS6 => Sys2Proof.Machine.execInitS6 s
  | .initS7 => Sys2Proof.Machine.execInitS7 s
  | .irClear => Sys2Proof.Machine.execIrClear s
  | .irHome => Sys2Proof.Machine.execIrHome s
  | .irEntryMode => Sys2Proof.Machine.execIrEntryMode s
  | .irDisplayControl cb => Sys2Proof.Machine.execIrDisplayControl cb s
  | .irCursorRight => Sys2Proof.Machine.execIrCursorRight s
  | .irFunctionSet => Sys2Proof.Machine.execIrFunctionSet s
  | .irCommand d => Sys2Proof.Machine.execIrCommand d s
  | .irData d => Sys2Proof.Machine.execIrData d s
  | .irForceNibble => Sys2Proof.Machine.execIrForceNibble s
  | .expStrobe db bt rs => Sys2Proof.Machine.execExpStrobe db bt rs s
  | .expSettleRelease db bt rs => Sys2Proof.Machine.execExpSettleRelease db bt rs s
  | .expBacklightOnly bt => Sys2Proof.Machine.execExpBacklightOnly bt s

end Sys2Proof.Machine
end

