-- ==== Sys2Proof/Machine/Sequencer.lean ====
section
/-! DEFINITION. The sequencer: which instruction runs next. It stands in its own file so that a repair may mend it. -/
namespace Sys2Proof.Machine

/-- What happens when the running script is empty: the next stage or the completion in INIT (41_init_fsm.md R148, R149),
the end of the request when `busy` (42_runtime_ops.md R170), and otherwise nothing, until the host moves. -/
def scriptEnd (s : State) : Result :=
  match s.phase with
  | .init =>
    if s.stage = 7#3 then .next (completeInit s)
    else
      match decodeStage (s.stage + 1#3) with
      | some i => exec i s
      | none => .fault .illegalStage
  | .ready => if s.busy then .next (completeRequest s) else .next s
  | .failed => .next s

/-- One step of the sequencer: it performs the first action of `seq` and removes it (10_state.md R27). -/
def sequencerStep (s : State) : Result :=
  match s.seq with
  | i :: rest => exec i { s with seq := rest }
  | [] => scriptEnd s

/-- A request word stands presented. While `busy` = 1 it waits (42_runtime_ops.md R170). When the init-completion response
is due too, the two responses go out in an open order (60_exceptions.md R204). Otherwise the request is decoded and run. -/
def requestStep (w : ReqWord) (later : List HostMove) (s : State) : Result :=
  if s.busy then sequencerStep s
  else if InitEndDue s ∧ reqReserved w = false then .next (initEndWithRequest { s with host := later })
  else exec (decodeReq w) { s with host := later }

/-- One step: what the host does comes first, then the sequencer. -/
def machineStep (s : State) : Result :=
  if LegalStage s then
    match s.host with
    | [] => sequencerStep s
    | .idle :: later => sequencerStep { s with host := later }
    | .request w :: later => requestStep w later s
    | .reset :: later => resetInput { s with host := later }
  else .fault .illegalStage

/-- Puts a request word on the request port, with the block free to accept it. -/
def presentRequest (w : ReqWord) (s : State) : State := { s with host := .request w :: s.host, busy := false }

/-- Puts an internal instruction at the head of the running script, with the host idle for one step. -/
def placeInScript (i : Instr) (s : State) : State := { s with host := .idle :: s.host, seq := i :: s.seq }

/-- Places an instruction where the next step takes it from: a request on the request port, any other at the head of
`seq`. -/
def placeInstr (i : Instr) (w : Nat) (s : State) : State :=
  match (encode i).1 with
  | .req => presentRequest (BitVec.ofNat 11 w) s
  | _ => placeInScript i s

end Sys2Proof.Machine
end

