-- ==== Sys2Proof/Machine/Step.lean ====
section
/-! DEFINITION. One step of the machine, and how a word is placed so that the next step runs it. -/
namespace Sys2Proof.Machine

/-- One step: one action of the sequencer, one end of a script, one request or one reset (Machine/Sequencer.lean). -/
def step (s : State) : Host.Outcome State Fault Refusal := machineStep s

/-- The state with the instruction of a table word placed where the next step takes it from. The block has no program
memory (20_memory.md R51): requests come from the host, and internal instructions stand in the running script. -/
def State.withFetchWord (s : State) (nbits w : Nat) : State :=
  match decodeTableWord nbits w with
  | some i => placeInstr i w s
  | none => s

end Sys2Proof.Machine
end

