-- ==== Sys2Proof/Safety.lean ====
section
/-! DEFINITION. The words claims are stated in: answers a port will give, what a script leaves behind when every write is
answered OK, the transfers written from the bit map, and the invariant of a safe run. -/
namespace Sys2Proof.Machine

/-! ## Ports -/

/-- The next `n` answers are all `a`. -/
def Feed.Gives {α : Type} (a : α) : Nat → Feed α → Prop
  | 0, _ => True
  | n + 1, f => f.head = a ∧ f.tail.Gives a n

/-- The answers left after `n` of them are used. -/
def Feed.drop {α : Type} : Nat → Feed α → Feed α
  | 0, f => f
  | n + 1, f => f.tail.drop n

/-! ## A script whose writes are all answered OK -/

/-- How many delays of a script are not 0, and so use the delay port (40_encoder.md R111). -/
def scriptWaits : Script → Nat
  | [] => 0
  | .w _ :: rest => scriptWaits rest
  | .d t :: rest => (if t = 0 then 0 else 1) + scriptWaits rest

/-- The events of a script whose writes are answered OK, in order (20_memory.md R60). -/
def scriptEvents (addr : DevAddr) : Script → List Event
  | [] => []
  | .w v :: rest => .w addr v .ok :: scriptEvents addr rest
  | .d t :: rest => if t = 0 then scriptEvents addr rest else .d t :: scriptEvents addr rest

/-- The last payload a script writes, or the byte the pins held before. -/
def lastWrite (old : Byte) : Script → Byte
  | [] => old
  | .w v :: rest => lastWrite v rest
  | .d _ :: rest => lastWrite old rest

/-- The state a script leaves when all its writes are answered OK and all its delays elapse: the events, the pins and
the answers used, and nothing else. -/
def afterScript (sc : Script) (s : State) : State :=
  { s with
    exp := lastWrite s.exp sc
    trace := s.trace ++ scriptEvents s.cfg.expanderAddr7 sc
    transport := s.transport.drop (scriptWrites sc).length
    delays := s.delays.drop (scriptWaits sc) }

/-- The ports will answer every write of a script OK and let every delay of it elapse. -/
def PortsServe (sc : Script) (s : State) : Prop :=
  s.transport.Gives .ok (scriptWrites sc).length ∧ s.delays.Gives .elapsed (scriptWaits sc)

/-! ## What a list of events, or of a script's instructions, holds -/

/-- The payloads written by a list of events, in order. -/
def eventWrites : List Event → List Byte
  | [] => []
  | .w _ v _ :: rest => v :: eventWrites rest
  | .d _ :: rest => eventWrites rest
  | .r _ :: rest => eventWrites rest

/-- The minimums of a list of events' delays, in order. -/
def eventDelays : List Event → List Nat
  | [] => []
  | .w _ _ _ :: rest => eventDelays rest
  | .d t :: rest => t :: eventDelays rest
  | .r _ :: rest => eventDelays rest

/-- The payload of an EXP_WRITE. -/
def writeOf : Instr → Option Byte
  | .expWrite v => some v
  | _ => none

/-- The time of a DELAY. -/
def delayOf : Instr → Option Nat
  | .delay t => some t
  | _ => none

/-- The payloads of the writes that stand in `seq`, in order. -/
def seqWrites (seq : List Instr) : List Byte := seq.filterMap writeOf

/-- The times of the delays that stand in `seq`, in order. -/
def seqDelays (seq : List Instr) : List Nat := seq.filterMap delayOf

/-- One nibble transfer as the tables of 41_init_fsm.md R150 and 95_test_vectors.md write it. -/
def pulseEvents (addr : DevAddr) (settle strobe : Byte) : List Event :=
  [.w addr settle .ok, .w addr strobe .ok, .d 1, .w addr settle .ok, .d 1]

/-! ## The host -/

/-- The host lets the sequencer take this step, and `later` is what it does afterwards: it is silent, or idle, or it
presents a request that has to wait because `busy` = 1 (42_runtime_ops.md R170). -/
def HostLets (s : State) (later : List HostMove) : Prop :=
  (s.host = [] ∧ later = []) ∨ s.host = .idle :: later ∨
    (s.busy = true ∧ s.host = later ∧ ∃ w rest, later = .request w :: rest)

/-! ## Transfers, from the bit map of 20_memory.md R55 -/

/-- One nibble transfer: settle, strobe, release, with the holds (40_encoder.md R114). -/
def nibblePulse (p : Params) (db : Nibble) (bt rs : Bit) : Script :=
  [.w (payloadWord db bt 0#1 rs)] ++ wait p.tSetup
    ++ [.w (payloadWord db bt 1#1 rs), .d 1, .w (payloadWord db bt 0#1 rs), .d 1]

/-- One controller word as two nibble transfers, high nibble first (30_encoding.md R90). -/
def wordPulses (p : Params) (d : Byte) (bt rs : Bit) : Script :=
  nibblePulse p (d.extractLsb' 4 4) bt rs ++ nibblePulse p (d.extractLsb' 0 4) bt rs

/-- The script of the request a word selects, from R172 to R175; none for a reserved op. -/
def requestScript (p : Params) (bl : Bit) (w : ReqWord) : Option Script :=
  if reqOp w = 0#3 then some (wordPulses p (reqData w) bl 0#1)
  else if reqOp w = 1#3 then some (wordPulses p (reqData w) bl 1#1)
  else if reqOp w = 2#3 then some (wordPulses p 0x02#8 bl 0#1 ++ wait p.tHome)
  else if reqOp w = 3#3 then
    some (wordPulses p 0x02#8 bl 0#1 ++ wait p.tHome ++ (List.replicate 40 (wordPulses p 0x14#8 bl 0#1)).flatten)
  else none

/-- The script of stage `n` with the backlight bit `bl` (41_init_fsm.md R141 to R147). -/
def stageScript (p : Params) (bl : Bit) (n : StageNum) : Script :=
  if n = 1#3 then [.d 600, .w (payloadWord 0#4 bl 0#1 0#1)] ++ wait p.tS1After
  else if n = 2#3 then (List.replicate 3 (nibblePulse p p.forceNibble bl 0#1 ++ [.d 5])).flatten
  else if n = 3#3 then wordPulses p 0x28#8 bl 0#1 ++ [.d 150]
  else if n = 4#3 then wordPulses p p.cmdDisplayControl bl 0#1 ++ [.d 5]
  else if n = 5#3 then wordPulses p 0x06#8 bl 0#1 ++ [.d 5]
  else if n = 6#3 then [.w (payloadWord 0#4 bl 0#1 0#1), .d 5]
  else if n = 7#3 then wordPulses p 0x01#8 bl 0#1 ++ wait p.tClear
  else []

/-- The whole initialization: stages 1 to 5 with the backlight off, 6 and 7 with it on (41_init_fsm.md R150). -/
def initScript (p : Params) : Script :=
  stageScript p 0#1 1#3 ++ stageScript p 0#1 2#3 ++ stageScript p 0#1 3#3 ++ stageScript p 0#1 4#3
    ++ stageScript p 0#1 5#3 ++ stageScript p 1#1 6#3 ++ stageScript p 1#1 7#3

/-! ## A failed write -/

/-- What is reported when a write fails: by the initialization in INIT, by the running request when `busy`, and by
nobody where no operation encloses the write (41_init_fsm.md R151, 42_runtime_ops.md R171, log 16). -/
def failureEvents (s : State) : List Event :=
  if s.phase = .init then [.r ⟨.initEnd, .busFail, s.stage⟩]
  else if s.busy then [.r ⟨.request, .busFail, 0#3⟩]
  else []

/-- `t` reports the failure of a write in `s`, with `events` up to that write: the failure response, and in INIT, when a
request stands presented as that response falls due, the answer to it before it, or else later (60_exceptions.md R204). -/
def FailureReported (s t : State) (events : List Event) : Prop :=
  (t.host = s.host ∧ t.trace = s.trace ++ events ++ failureEvents s) ∨
  (∃ w later, s.phase = .init ∧ s.busy = false ∧ s.host = .request w :: later ∧ t.host = later ∧
    t.trace = s.trace ++ events ++ [.r ⟨.request, if reqReserved w then .illegalOp else .notReady, 0#3⟩]
      ++ failureEvents s)

/-- The instruction `i`, which performs the script `sc`, stops at whichever write fails: what stands before that write is
done and nothing after it (40_encoder.md R112), and the failure path of the enclosing operation follows. -/
def StopsAtFailedWrite (i : Instr) (sc : Script) (s : State) : Prop :=
  ∀ n, n < (scriptWrites sc).length → s.transport.Gives .ok n → (s.transport.drop n).head = .fail →
    s.delays.Gives .elapsed (scriptWaits sc) →
    ∃ (before after : Script) (v : Byte) (t : State),
      sc = before ++ .w v :: after ∧ (scriptWrites before).length = n ∧ exec i s = .next t ∧
      FailureReported s t (scriptEvents s.cfg.expanderAddr7 before ++ [.w s.cfg.expanderAddr7 v .fail]) ∧
      (t.exp = v ∨ t.exp = lastWrite s.exp before) ∧ t.seq = [] ∧ t.bl = s.bl ∧ t.cfg = s.cfg ∧
      t.phase = (if s.phase = .init then .failed else s.phase) ∧
      t.failStage = (if s.phase = .init then s.stage else s.failStage) ∧
      t.stage = (if s.phase = .init then 0#3 else s.stage) ∧
      t.busy = (if s.phase = .init then s.busy else false)

/-! ## The invariant of a safe run -/

/-- The backlight state a phase and a stage (or a failed stage) go with: off up to stage 5, on from stage 6
(10_state.md R23, R35; 41_init_fsm.md R151). -/
def backlightOf (s : State) : Bit :=
  match s.phase with
  | .init => if s.stage.toNat ≤ 5 then 0#1 else 1#1
  | .ready => 1#1
  | .failed => if s.failStage.toNat ≤ 5 then 0#1 else 1#1

/-- An item of `seq` the block can hold: a write whose R/W bit is 0 and whose backlight bit is `bl`, or a delay that is
not 0 (30_encoding.md R85, 10_state.md R35, 00_scope.md R13). -/
def SeqItemOk (bl : Bit) (i : Instr) : Prop :=
  match i with
  | .expWrite v => v.getLsbD 1 = false ∧ v.extractLsb' 3 1 = bl
  | .delay t => t ≠ 0
  | _ => False

/-- Every strobe of a running script is held for `T_EN_HIGH`, released with the same other bits, and held again
(40_encoder.md R120, R114). -/
def EnOwned : List Instr → Prop
  | [] => True
  | .expWrite v :: rest =>
    (v.getLsbD 2 = true → ∃ more, rest = .delay 1 :: .expWrite (v &&& 0xFB#8) :: .delay 1 :: more) ∧ EnOwned rest
  | _ :: rest => EnOwned rest

/-- The invariant: what 10_state.md says of the fields in every state the block reaches. -/
structure BlockInv (s : State) : Prop where
  /-- `stage` fits `phase` (R22). -/
  legalStage : LegalStage s
  /-- A runtime operation runs in READY only (R25). -/
  busyReady : s.busy = true → s.phase = .ready
  /-- Outside INIT, a script is left only while an operation runs (R27). -/
  idleEmpty : s.phase ≠ .init → s.busy = false → s.seq = []
  /-- `fail_stage` is not 0 exactly in FAILED (R24). -/
  failStage : s.phase = .failed ↔ s.failStage ≠ 0#3
  /-- The backlight bit (R23, R35). -/
  backlight : s.bl = backlightOf s
  /-- What is left of the script (R35, 30_encoding.md R85). -/
  items : ∀ i ∈ s.seq, SeqItemOk s.bl i
  /-- EN is owned by the encoder (40_encoder.md R120). -/
  enable : EnOwned s.seq

/-- Every write of the trace went to the expander's address with R/W = 0 (20_memory.md R52, R55). -/
def TraceClean (s : State) : Prop :=
  ∀ addr v ack, Event.w addr v ack ∈ s.trace → addr = s.cfg.expanderAddr7 ∧ v.getLsbD 1 = false

end Sys2Proof.Machine
end

