-- ==== Sys2Proof/Certificates/Slice0/Obligations.lean ====
section
/-! DEFINITION. The statements for the provers. Each says a rule of spec/ of the model; a completion statement gives the whole
next state, so that it also says what an instruction leaves unchanged. -/

open Sys2Proof Sys2Proof.Machine

/-! ## Encoding -/

/-- Words written out from 30_encoding.md R81, R82, R85 to R87, 40_encoder.md R114 and the stage register decode to the
instructions they stand for. The block decodes only the five request words (R88); the places at which the nine others are
read are the model's choice (log 10), and so is the reading of SEND_NIBBLE's pattern (log 17). -/
def Obligations.SpecWordsDecode : Prop :=
  decode .req 0b00000000001 = .ok (.wcmd 0x01#8) ∧
  decode .req 0b00101000001 = .ok (.wchr 0x41#8) ∧
  decode .req 0b01011111111 = .ok (.line1 0xFF#8) ∧
  decode .req 0b01100000000 = .ok (.line2 0x00#8) ∧
  decode .req 0b11110101011 = .ok (.rsv 7#3 0xAB#8) ∧
  decode .irOwn 0b000101000 = .ok .irFunctionSet ∧
  decode .irOwn 0b000001111 = .ok (.irDisplayControl 3#2) ∧
  decode .irPass 0b101000001 = .ok (.irData 0x41#8) ∧
  decode .exp 0b01001101 = .ok (.expStrobe 4#4 1#1 1#1) ∧
  decode .exp 0b10000000 = .ok (.expSettleRelease 8#4 0#1 0#1) ∧
  decode .expBacklight 0b00001000 = .ok (.expBacklightOnly 1#1) ∧
  decode .expForce 0b00100100 = .ok .irForceNibble ∧
  decode .sendNibble 0b01000001 = .ok (.sendNibble 0x40#8 0x01#8) ∧
  decode .initStage 0b110 = .ok .initS6

/-- Decoding the encoding of a well-formed instruction gives it back, with every operand. -/
def Obligations.DecodeEncodeRoundTrip : Prop :=
  ∀ i : Instr, WellFormed i → decode (encode i).1 (encode i).2 = .ok i

/-- Every 11-bit request word decodes, to a well-formed instruction that is encoded as that word (30_encoding.md R82,
R89). -/
def Obligations.EveryRequestWordDecodes : Prop :=
  ∀ w : ReqWord, decode .req w.toNat = .ok (decodeReq w) ∧ WellFormed (decodeReq w) ∧
    encode (decodeReq w) = (.req, w.toNat)

/-- What is not an encoding is rejected by name: a payload with R/W set, a request word with a bit above its 11, a stage
register of 0, a controller word the block does not emit. Only the clause on request words is about what the block decodes
(30_encoding.md R80, R81); the places of the others, and that they reject anything, are the model's choice (log 10). -/
def Obligations.MalformedWordsRejected : Prop :=
  (∀ b : Byte, b.getLsbD 1 = true → decode .exp b.toNat = .error .readWriteSet) ∧
  (∀ w : Nat, 2 ^ 11 ≤ w → decode .req w = .error .tooWide) ∧
  decode .initStage 0 = .error .noStage ∧
  decode .irOwn 0x030 = .error .notOwnWord ∧
  decode .expBacklight 0x18 = .error .fixedBits

/-- The constants that the stages and the cursor operations send are the controller words of 30_encoding.md R87, for
every legal `CMD_DISPLAY_CONTROL`. The place at which a bare controller word is read is the model's choice (log 10). -/
def Obligations.StageWordsAreOwnWords : Prop :=
  decode .irOwn cmdFunctionSet.toNat = .ok .irFunctionSet ∧ decode .irOwn cmdEntryMode.toNat = .ok .irEntryMode ∧
  decode .irOwn cmdClear.toNat = .ok .irClear ∧ decode .irOwn cmdHome.toNat = .ok .irHome ∧
  decode .irOwn cmdCursorRight.toNat = .ok .irCursorRight ∧
  cmdFunctionSet = 0x28#8 ∧ cmdEntryMode = 0x06#8 ∧ cmdClear = 0x01#8 ∧ cmdHome = 0x02#8 ∧ cmdCursorRight = 0x14#8 ∧
  ∀ p : Params, p.Legal →
    decode .irOwn p.cmdDisplayControl.toNat = .ok (.irDisplayControl (p.cmdDisplayControl.extractLsb' 0 2))

/-- The fields of a response word stand where 30_encoding.md R84 puts them, with its codes. -/
def Obligations.ResponseWordFields : Prop :=
  (∀ r : Response, (responseWord r).extractLsb' 5 1 = kindCode r.kind ∧
    (responseWord r).extractLsb' 3 2 = statusCode r.status ∧ (responseWord r).extractLsb' 0 3 = r.info) ∧
  kindCode .initEnd = 0#1 ∧ kindCode .request = 1#1 ∧
  statusCode .ok = 0b00#2 ∧ statusCode .busFail = 0b01#2 ∧ statusCode .notReady = 0b10#2 ∧
  statusCode .illegalOp = 0b11#2

/-- The status port shows `phase` by its code of 10_state.md R21, and `stage`, `bl` and `fail_stage` as they are
(92_eei_decisions.md D2, 60_exceptions.md R212). -/
def Obligations.StatusPortReads : Prop :=
  (∀ s : State,
    ((statusPort s).phase = 0b00#2 ↔ s.phase = .init) ∧ ((statusPort s).phase = 0b01#2 ↔ s.phase = .ready) ∧
    ((statusPort s).phase = 0b10#2 ↔ s.phase = .failed) ∧
    (statusPort s).stage = s.stage ∧ (statusPort s).bl = s.bl ∧ (statusPort s).failStage = s.failStage)

/-! ## A step runs the instruction that stands where it takes it from -/

/-- A request word that stands presented to a block that can accept it is decoded, and the step is that instruction's
meaning, with the word taken off the port. -/
def Obligations.StepRunsPresentedRequest : Prop :=
  ∀ (s : State) (w : ReqWord) (later : List HostMove) (i : Instr),
    LegalStage s → s.host = .request w :: later → s.busy = false → decode .req w.toNat = .ok i →
    ¬ (InitEndDue s ∧ reqReserved w = false) →
    step s = exec i { s with host := later }

/-- The step of the sequencer is the meaning of the first item of `seq`, with that item removed (10_state.md R27). -/
def Obligations.StepRunsScriptHead : Prop :=
  ∀ (s : State) (later : List HostMove) (i : Instr) (rest : List Instr),
    LegalStage s → HostLets s later → s.seq = i :: rest →
    step s = exec i { s with host := later, seq := rest }

/-- A word placed by `withFetchWord` is what the next step runs. -/
def Obligations.StepRunsPlacedWord : Prop :=
  ∀ (s : State) (nbits w : Nat) (i : Instr),
    LegalStage s → ¬ InitEndDue s → decodeTableWord nbits w = some i →
    ((encode i).1 = .req → step (s.withFetchWord nbits w) = exec i { s with busy := false }) ∧
    ((encode i).1 ≠ .req → step (s.withFetchWord nbits w) = exec i s)

/-! ## Requests -/

/-- In READY with `busy` = 0, WCMD and WCHR are accepted: `busy` is set, `seq` holds the word's two nibble transfers with
the backlight bit `bl`, and nothing else changes (42_runtime_ops.md R170, R172, R173). -/
def Obligations.CommandAndCharacterAccepted : Prop :=
  ∀ (s : State) (data : Byte), s.phase = .ready → s.busy = false →
    exec (.wcmd data) s =
      .next { s with busy := true, seq := Script.instrs (wordPulses s.cfg data s.bl 0#1) } ∧
    exec (.wchr data) s =
      .next { s with busy := true, seq := Script.instrs (wordPulses s.cfg data s.bl 1#1) }

/-- In READY with `busy` = 0, LINE1 and LINE2 are accepted whatever their operand: Return-Home, and for LINE2 then 40
cursor-right words (42_runtime_ops.md R174, R175). -/
def Obligations.CursorRequestsAccepted : Prop :=
  ∀ (s : State) (data : Byte), s.phase = .ready → s.busy = false →
    exec (.line1 data) s =
      .next { s with busy := true, seq := Script.instrs (wordPulses s.cfg 0x02#8 s.bl 0#1 ++ wait s.cfg.tHome) } ∧
    exec (.line2 data) s =
      .next { s with
        busy := true
        seq := Script.instrs (wordPulses s.cfg 0x02#8 s.bl 0#1 ++ wait s.cfg.tHome
          ++ (List.replicate 40 (wordPulses s.cfg 0x14#8 s.bl 0#1)).flatten) }

/-- A word whose bits 10:8 are 1xx is RSV, and RSV is answered ILLEGAL_OP in every phase, with no other change
(42_runtime_ops.md R176). -/
def Obligations.ReservedRequestAnswered : Prop :=
  (∀ w : ReqWord, w.getLsbD 10 = true → decode .req w.toNat = .ok (.rsv (w.extractLsb' 8 3) (w.extractLsb' 0 8))) ∧
  (∀ (s : State) (op : BitVec 3) (data : Byte), s.busy = false →
    exec (.rsv op data) s = .next { s with trace := s.trace ++ [.r ⟨.request, .illegalOp, 0#3⟩] })

/-- Outside READY the other requests are answered NOT_READY, with no other change (42_runtime_ops.md R170). -/
def Obligations.RequestsOutsideReadyAnswered : Prop :=
  ∀ (s : State) (data : Byte), s.phase ≠ .ready → s.busy = false →
    exec (.wcmd data) s = .next { s with trace := s.trace ++ [.r ⟨.request, .notReady, 0#3⟩] } ∧
    exec (.wchr data) s = .next { s with trace := s.trace ++ [.r ⟨.request, .notReady, 0#3⟩] } ∧
    exec (.line1 data) s = .next { s with trace := s.trace ++ [.r ⟨.request, .notReady, 0#3⟩] } ∧
    exec (.line2 data) s = .next { s with trace := s.trace ++ [.r ⟨.request, .notReady, 0#3⟩] }

/-- While `busy` = 1 a request is not accepted: its meaning leaves it presented, and a step of a block that meets the
invariant leaves it presented too (42_runtime_ops.md R170). -/
def Obligations.RequestWaitsWhileBusy : Prop :=
  (∀ (s : State) (w : ReqWord), s.busy = true →
    exec (decodeReq w) s = .next { s with host := .request w :: s.host }) ∧
  (∀ (s t : State) (w : ReqWord) (later : List HostMove), BlockInv s → s.busy = true → s.host = .request w :: later →
    step s = .next t → t.host = s.host)

/-! ## Primitives, controller words and payloads, when the ports serve them -/

/-- EXP_WRITE answered OK sets the pins to its operand and records the write (40_encoder.md R113, 20_memory.md R52). -/
def Obligations.ExpanderWriteAcknowledged : Prop :=
  ∀ (s : State) (v : Byte), s.transport.head = .ok →
    exec (.expWrite v) s =
      .next { s with
        exp := v
        trace := s.trace ++ [.w s.cfg.expanderAddr7 v .ok]
        transport := s.transport.tail }

/-- DELAY of 0 does nothing; any other DELAY that elapses records its minimum (40_encoder.md R111). -/
def Obligations.DelayElapses : Prop :=
  (∀ s : State, exec (.delay 0) s = .next s) ∧
  ∀ (s : State) (t : Nat), t ≠ 0 → s.delays.head = .elapsed →
    exec (.delay t) s = .next { s with trace := s.trace ++ [.d t], delays := s.delays.tail }

/-- BL_WRITE writes `bl` in bit 3 and 0 elsewhere (40_encoder.md R119). -/
def Obligations.BacklightWriteRuns : Prop :=
  ∀ s : State, s.transport.head = .ok →
    exec .blWrite s =
      .next { s with
        exp := payloadWord 0#4 s.bl 0#1 0#1
        trace := s.trace ++ [.w s.cfg.expanderAddr7 (payloadWord 0#4 s.bl 0#1 0#1) .ok]
        transport := s.transport.tail }

/-- SEND_NIBBLE is one nibble transfer of bits 7:4 of its operand, with RS from bit 0 of the control operand
(40_encoder.md R114). -/
def Obligations.NibbleTransferRuns : Prop :=
  ∀ (s : State) (n8 rs : Byte),
    PortsServe (nibblePulse s.cfg (n8.extractLsb' 4 4) s.bl (rs.extractLsb' 0 1)) s →
    exec (.sendNibble n8 rs) s =
      .next (afterScript (nibblePulse s.cfg (n8.extractLsb' 4 4) s.bl (rs.extractLsb' 0 1)) s)

/-- SEND_BYTE, SEND_COMMAND and SEND_CHARACTER are two nibble transfers, high nibble first (40_encoder.md R115 to
R117). -/
def Obligations.ByteTransferRuns : Prop :=
  (∀ (s : State) (value rs : Byte), PortsServe (wordPulses s.cfg value s.bl (rs.extractLsb' 0 1)) s →
    exec (.sendByte value rs) s = .next (afterScript (wordPulses s.cfg value s.bl (rs.extractLsb' 0 1)) s)) ∧
  (∀ (s : State) (value : Byte), PortsServe (wordPulses s.cfg value s.bl 0#1) s →
    exec (.sendCommand value) s = .next (afterScript (wordPulses s.cfg value s.bl 0#1) s)) ∧
  (∀ (s : State) (value : Byte), PortsServe (wordPulses s.cfg value s.bl 1#1) s →
    exec (.sendCharacter value) s = .next (afterScript (wordPulses s.cfg value s.bl 1#1) s))

/-- The controller words go out as two nibble transfers with their RS, high nibble first (30_encoding.md R87, R90). -/
def Obligations.ControllerWordsCarried : Prop :=
  (∀ s : State, PortsServe (wordPulses s.cfg 0x01#8 s.bl 0#1) s →
    exec .irClear s = .next (afterScript (wordPulses s.cfg 0x01#8 s.bl 0#1) s)) ∧
  (∀ s : State, PortsServe (wordPulses s.cfg 0x02#8 s.bl 0#1) s →
    exec .irHome s = .next (afterScript (wordPulses s.cfg 0x02#8 s.bl 0#1) s)) ∧
  (∀ s : State, PortsServe (wordPulses s.cfg 0x06#8 s.bl 0#1) s →
    exec .irEntryMode s = .next (afterScript (wordPulses s.cfg 0x06#8 s.bl 0#1) s)) ∧
  (∀ (s : State) (cb : BitVec 2), PortsServe (wordPulses s.cfg (0x0C#8 ||| cb.setWidth 8) s.bl 0#1) s →
    exec (.irDisplayControl cb) s = .next (afterScript (wordPulses s.cfg (0x0C#8 ||| cb.setWidth 8) s.bl 0#1) s)) ∧
  (∀ s : State, PortsServe (wordPulses s.cfg 0x14#8 s.bl 0#1) s →
    exec .irCursorRight s = .next (afterScript (wordPulses s.cfg 0x14#8 s.bl 0#1) s)) ∧
  (∀ s : State, PortsServe (wordPulses s.cfg 0x28#8 s.bl 0#1) s →
    exec .irFunctionSet s = .next (afterScript (wordPulses s.cfg 0x28#8 s.bl 0#1) s)) ∧
  (∀ (s : State) (d : Byte), PortsServe (wordPulses s.cfg d s.bl 0#1) s →
    exec (.irCommand d) s = .next (afterScript (wordPulses s.cfg d s.bl 0#1) s)) ∧
  (∀ (s : State) (d : Byte), PortsServe (wordPulses s.cfg d s.bl 1#1) s →
    exec (.irData d) s = .next (afterScript (wordPulses s.cfg d s.bl 1#1) s))

/-- IR_FORCE_NIBBLE is one nibble transfer of `FORCE_NIBBLE` with RS = 0 (41_init_fsm.md R142; that the row stands for the
transfer without the settle delay is the model's choice, log 9). -/
def Obligations.ForceNibbleSent : Prop :=
  ∀ s : State, PortsServe (nibblePulse s.cfg s.cfg.forceNibble s.bl 0#1) s →
    exec .irForceNibble s = .next (afterScript (nibblePulse s.cfg s.cfg.forceNibble s.bl 0#1) s)

/-- The payload rows write their byte, with EN and R/W as 30_encoding.md R85 says (that a row stands for one expander
write of its word, BT included, is the model's choice, log 8). -/
def Obligations.PayloadsIssued : Prop :=
  ∀ (s : State) (db : Nibble) (bt rs : Bit), s.transport.head = .ok →
    exec (.expStrobe db bt rs) s =
      .next { s with
        exp := payloadWord db bt 1#1 rs
        trace := s.trace ++ [.w s.cfg.expanderAddr7 (payloadWord db bt 1#1 rs) .ok]
        transport := s.transport.tail } ∧
    exec (.expSettleRelease db bt rs) s =
      .next { s with
        exp := payloadWord db bt 0#1 rs
        trace := s.trace ++ [.w s.cfg.expanderAddr7 (payloadWord db bt 0#1 rs) .ok]
        transport := s.transport.tail } ∧
    exec (.expBacklightOnly bt) s =
      .next { s with
        exp := payloadWord 0#4 bt 0#1 0#1
        trace := s.trace ++ [.w s.cfg.expanderAddr7 (payloadWord 0#4 bt 0#1 0#1) .ok]
        transport := s.transport.tail }

/-- Bits 3:0 of SEND_NIBBLE's operand and bits 7:1 of its control operand are discarded (40_encoder.md R114). -/
def Obligations.NibbleOperandsMasked : Prop :=
  ∀ (s : State) (n8 rs : Byte),
    exec (.sendNibble n8 rs) s = exec (.sendNibble (n8 &&& 0xF0#8) (rs &&& 0x01#8)) s

/-- A SEND_NIBBLE that does not fail emits three writes, settle, strobe, release, the strobe being the settle payload with
bit 2 set; a SEND_BYTE emits two of them, with bits 7:4 and then bits 3:0 of the value on the data lines
(40_encoder.md R118). -/
def Obligations.TransfersCountedAndOrdered : Prop :=
  (∀ (s t : State) (n8 rs : Byte), run (nibScript s.cfg s.bl n8 rs) s = .ok t →
    t.trace = s.trace ++ scriptEvents s.cfg.expanderAddr7 (nibScript s.cfg s.bl n8 rs) ∧
    ∃ b : Byte, b.getLsbD 2 = false ∧ scriptWrites (nibScript s.cfg s.bl n8 rs) = [b, b ||| 0x04#8, b]) ∧
  (∀ (s t : State) (value rs : Byte), run (byteScript s.cfg s.bl value rs) s = .ok t →
    t.trace = s.trace ++ scriptEvents s.cfg.expanderAddr7 (byteScript s.cfg s.bl value rs) ∧
    ∃ h l : Byte, h.getLsbD 2 = false ∧ l.getLsbD 2 = false ∧
      h.extractLsb' 4 4 = value.extractLsb' 4 4 ∧ l.extractLsb' 4 4 = value.extractLsb' 0 4 ∧
      scriptWrites (byteScript s.cfg s.bl value rs) = [h, h ||| 0x04#8, h, l, l ||| 0x04#8, l])

/-- No encoder primitive writes `bl`, and every write of a transfer or of BL_WRITE, failed ones included, carries `bl` in
bit 3 (40_encoder.md R121). -/
def Obligations.PrimitivesKeepBacklight : Prop :=
  (∀ (s t : State) (n8 value rs : Byte),
    (exec (.sendNibble n8 rs) s = .next t ∨ exec (.sendByte value rs) s = .next t ∨
      exec (.sendCommand value) s = .next t ∨ exec (.sendCharacter value) s = .next t ∨ exec .blWrite s = .next t) →
    t.bl = s.bl ∧ ∃ new, t.trace = s.trace ++ new ∧
      ∀ addr v ack, Event.w addr v ack ∈ new → v.extractLsb' 3 1 = s.bl) ∧
  (∀ (s t : State) (v : Byte) (d : Nat), (exec (.expWrite v) s = .next t ∨ exec (.delay d) s = .next t) → t.bl = s.bl)

/-- A byte transfer whose write number n + 1 fails has done the n writes before it and the delays among them, and nothing
after it; the pins hold the failed payload or the one before it (40_encoder.md R112, R115; 60_exceptions.md R202). -/
def Obligations.FailedByteTransferStops : Prop :=
  ∀ (s : State) (value rs : Byte) (n : Nat), n < 6 →
    s.transport.Gives .ok n → (s.transport.drop n).head = .fail →
    s.delays.Gives .elapsed (scriptWaits (wordPulses s.cfg value s.bl (rs.extractLsb' 0 1))) →
    ∃ (before after : Script) (v : Byte) (t : State) (answers : List Event),
      wordPulses s.cfg value s.bl (rs.extractLsb' 0 1) = before ++ .w v :: after ∧
      (scriptWrites before).length = n ∧
      exec (.sendByte value rs) s = .next t ∧
      t.trace = s.trace ++ scriptEvents s.cfg.expanderAddr7 before ++ [.w s.cfg.expanderAddr7 v .fail] ++ answers ∧
      (∀ e ∈ answers, ∃ r, e = .r r) ∧
      (t.exp = v ∨ t.exp = lastWrite s.exp before) ∧ t.seq = [] ∧ t.bl = s.bl

/-! ## Stages -/

/-- In INIT each stage sets `stage`, gives the sequencer its script and changes nothing else; stage 6 sets `bl` first
(41_init_fsm.md R141 to R148; that a stage placed out of order, or while another's script is unfinished, is entered all the
same is the model's choice, log 26). -/
def Obligations.StagesEntered : Prop :=
  ∀ s : State, s.phase = .init →
    exec .initS1 s = .next { s with stage := 1#3, seq := Script.instrs (stageScript s.cfg s.bl 1#3) } ∧
    exec .initS2 s = .next { s with stage := 2#3, seq := Script.instrs (stageScript s.cfg s.bl 2#3) } ∧
    exec .initS3 s = .next { s with stage := 3#3, seq := Script.instrs (stageScript s.cfg s.bl 3#3) } ∧
    exec .initS4 s = .next { s with stage := 4#3, seq := Script.instrs (stageScript s.cfg s.bl 4#3) } ∧
    exec .initS5 s = .next { s with stage := 5#3, seq := Script.instrs (stageScript s.cfg s.bl 5#3) } ∧
    exec .initS6 s =
      .next { s with stage := 6#3, bl := 1#1, seq := [.expWrite 0x08#8, .delay 5] } ∧
    exec .initS7 s = .next { s with stage := 7#3, seq := Script.instrs (stageScript s.cfg s.bl 7#3) }

/-- A stage run outside INIT faults by name: it would make a `stage` that is not 0 outside INIT
(93_implementation_defined.md I13; that the instruction itself faults is the model's choice, log 7). -/
def Obligations.StagesOutsideInitFault : Prop :=
  ∀ s : State, s.phase ≠ .init →
    exec .initS1 s = .fault .illegalStage ∧ exec .initS2 s = .fault .illegalStage ∧
    exec .initS3 s = .fault .illegalStage ∧ exec .initS4 s = .fault .illegalStage ∧
    exec .initS5 s = .fault .illegalStage ∧ exec .initS6 s = .fault .illegalStage ∧
    exec .initS7 s = .fault .illegalStage

/-- When the script of stage 1 to 6 is done, the next stage follows with no event; `bl` becomes 1 on the way into stage 6
(41_init_fsm.md R148, R146). -/
def Obligations.StageAdvances : Prop :=
  ∀ (s : State) (later : List HostMove),
    s.phase = .init → s.stage ≠ 0#3 → s.stage ≠ 7#3 → s.seq = [] → HostLets s later →
    step s = .next { s with
      host := later
      stage := s.stage + 1#3
      bl := if s.stage = 5#3 then 1#1 else s.bl
      seq := Script.instrs (stageScript s.cfg (if s.stage = 5#3 then 1#1 else s.bl) (s.stage + 1#3)) }

/-- When the script of stage 7 is done, the block goes to READY with `stage` 0 and reports OK; from then on it accepts
requests, and nothing but reset leaves READY (41_init_fsm.md R149). -/
def Obligations.InitializationCompletes : Prop :=
  (∀ (s : State) (later : List HostMove), InitEndDue s → HostLets s later →
    step s = .next { s with
      host := later
      phase := .ready
      stage := 0#3
      trace := s.trace ++ [.r ⟨.initEnd, .ok, 0#3⟩] }) ∧
  (∀ (s : State) (w : ReqWord) (later : List HostMove) (sc : Script),
    s.phase = .ready → s.stage = 0#3 → s.busy = false → s.host = .request w :: later →
    requestScript s.cfg s.bl w = some sc →
    step s = .next { s with host := later, busy := true, seq := Script.instrs sc }) ∧
  (∀ s t : State, s.phase = .ready → step s = .next t → t.phase = .ready ∨ ∃ later, s.host = .reset :: later)

/-- When the script of a request is done, `busy` is cleared and OK is reported (42_runtime_ops.md R170). -/
def Obligations.RequestCompletes : Prop :=
  ∀ (s : State) (later : List HostMove),
    s.phase = .ready → s.stage = 0#3 → s.busy = true → s.seq = [] → HostLets s later →
    step s = .next { s with
      host := later
      busy := false
      trace := s.trace ++ [.r ⟨.request, .ok, 0#3⟩] }

/-- When a request that is not reserved stands presented as the init-completion response falls due, either response may go
out first (60_exceptions.md R204); which one is a free value (log 15). Nothing else changes but the request being taken, the
model's own counter of draws apart (log 6). -/
def Obligations.SimultaneousResponsesInEitherOrder : Prop :=
  ∀ (s : State) (w : ReqWord) (later : List HostMove),
    InitEndDue s → s.busy = false → s.host = .request w :: later → reqReserved w = false →
    ∃ t, step s = .next t ∧ t.host = later ∧ t.seq = [] ∧ t.bl = s.bl ∧ t.exp = s.exp ∧ t.busy = false ∧
      t.cfg = s.cfg ∧ t.failStage = s.failStage ∧ t.transport = s.transport ∧ t.delays = s.delays ∧
      ((t.phase = .ready ∧ t.stage = 0#3 ∧
          t.trace = s.trace ++ [.r ⟨.initEnd, .ok, 0#3⟩, .r ⟨.request, .notReady, 0#3⟩]) ∨
        (InitEndDue t ∧ t.trace = s.trace ++ [.r ⟨.request, .notReady, 0#3⟩]))

/-- A request presented outside READY is answered at once, and the running initialization is untouched: only the host's
move and one response (41_init_fsm.md R153, 42_runtime_ops.md R170). -/
def Obligations.RequestsLeaveInitializationAlone : Prop :=
  ∀ (s : State) (w : ReqWord) (later : List HostMove),
    LegalStage s → s.phase ≠ .ready → s.busy = false → s.host = .request w :: later →
    ¬ (InitEndDue s ∧ reqReserved w = false) →
    step s = .next { s with
      host := later
      trace := s.trace ++ [.r ⟨.request, if reqReserved w then .illegalOp else .notReady, 0#3⟩] }

/-! ## Failures -/

/-- A write of a stage that is answered FAIL ends the initialization: FAILED, the stage recorded, `stage` 0, no action
left, the failure reported; `bl` stays and the pins hold the old byte or the failed payload (41_init_fsm.md R151,
20_memory.md R52). When a request stands presented as the failure response falls due, either response may go out first
(60_exceptions.md R204); which one is a free value (log 15). -/
def Obligations.FailedWriteEndsInitialization : Prop :=
  ∀ (s : State) (v : Byte) (rest : List Instr) (later : List HostMove),
    s.phase = .init → s.stage ≠ 0#3 → HostLets s later → s.seq = .expWrite v :: rest → s.transport.head = .fail →
    ∃ t, step s = .next t ∧
      t.phase = .failed ∧ t.failStage = s.stage ∧ t.stage = 0#3 ∧ t.seq = [] ∧ t.bl = s.bl ∧ t.busy = s.busy ∧
      t.cfg = s.cfg ∧ (t.exp = s.exp ∨ t.exp = v) ∧ t.transport = s.transport.tail ∧ t.delays = s.delays ∧
      ((t.host = later ∧
          t.trace = s.trace ++ [.w s.cfg.expanderAddr7 v .fail, .r ⟨.initEnd, .busFail, s.stage⟩]) ∨
        (∃ w rest', later = .request w :: rest' ∧ s.busy = false ∧ t.host = rest' ∧
          t.trace = s.trace ++ [.w s.cfg.expanderAddr7 v .fail,
            .r ⟨.request, if reqReserved w then .illegalOp else .notReady, 0#3⟩,
            .r ⟨.initEnd, .busFail, s.stage⟩]))

/-- A write of a runtime operation that is answered FAIL ends the operation: `busy` 0, no action left, the failure
reported, `phase` and `bl` unchanged; the next request is accepted and run as usual (42_runtime_ops.md R171). -/
def Obligations.FailedWriteEndsRequest : Prop :=
  ∀ (s : State) (v : Byte) (rest : List Instr) (later : List HostMove),
    s.phase = .ready → s.stage = 0#3 → s.busy = true → HostLets s later → s.seq = .expWrite v :: rest →
    s.transport.head = .fail →
    ∃ t, step s = .next t ∧
      t.phase = .ready ∧ t.stage = 0#3 ∧ t.failStage = s.failStage ∧ t.busy = false ∧ t.seq = [] ∧ t.bl = s.bl ∧
      t.cfg = s.cfg ∧ (t.exp = s.exp ∨ t.exp = v) ∧
      t.trace = s.trace ++ [.w s.cfg.expanderAddr7 v .fail, .r ⟨.request, .busFail, 0#3⟩] ∧
      t.host = later ∧ t.transport = s.transport.tail ∧ t.delays = s.delays ∧
      ∀ (w : ReqWord) (later' : List HostMove), later = .request w :: later' →
        (∀ sc, requestScript s.cfg s.bl w = some sc →
          step t = .next { t with host := later', busy := true, seq := Script.instrs sc }) ∧
        (reqReserved w = true →
          step t = .next { t with host := later', trace := t.trace ++ [.r ⟨.request, .illegalOp, 0#3⟩] })

/-- A port that never answers leaves the block stuck, by name and never as a failure response (70_reset_and_hazards.md
R238). -/
def Obligations.SilentPortsStick : Prop :=
  (∀ (s : State) (v : Byte) (rest : List Instr) (later : List HostMove),
    LegalStage s → HostLets s later → s.seq = .expWrite v :: rest → s.transport.head = .silent →
    step s = .fault .transportSilent) ∧
  (∀ (s : State) (t : Nat) (rest : List Instr) (later : List HostMove),
    LegalStage s → HostLets s later → s.seq = .delay t :: rest → t ≠ 0 → s.delays.head = .never →
    step s = .fault .delayNeverEnds)

/-- A `stage` that does not fit the `phase` faults if ever reached (10_state.md R22, 93_implementation_defined.md I13). -/
def Obligations.IllegalStageFaults : Prop :=
  ∀ s : State, ¬ LegalStage s → step s = .fault .illegalStage

/-! ## Reset -/

/-- The state right after reset: every field at its value of 10_state.md R34, `seq` the stage-1 script, and `exp` a free
value. -/
def Obligations.ResetValues : Prop :=
  State.reset.phase = .init ∧ State.reset.stage = 1#3 ∧ State.reset.bl = 0#1 ∧ State.reset.failStage = 0#3 ∧
  State.reset.busy = false ∧ State.reset.seq = [.delay 600, .expWrite 0x00#8] ∧
  State.reset.exp = Config.expAtReset 0

/-- The reset input: from a quiescent block every field goes to its reset value, with the pins unknown, and the trace
goes on; at any other time it is refused (70_reset_and_hazards.md R230; that the trace goes on is the model's choice,
log 11). -/
def Obligations.ResetOnlyWhenQuiescent : Prop :=
  (∀ (s : State) (later : List HostMove), LegalStage s → s.host = .reset :: later → Quiescent s →
    ∃ e d, step s = .next { s with
      host := later
      phase := .init
      stage := 1#3
      bl := 0#1
      failStage := 0#3
      busy := false
      seq := Script.instrs (stageScript s.cfg 0#1 1#3)
      exp := e
      draws := d }) ∧
  (∀ (s : State) (later : List HostMove), LegalStage s → s.host = .reset :: later → ¬ Quiescent s →
    step s = .refused .resetNotQuiescent)

/-- A quiescent block with a silent host stays as it is (70_reset_and_hazards.md R242). -/
def Obligations.QuiescentBlockWaits : Prop :=
  ∀ s : State, LegalStage s → Quiescent s → s.host = [] → step s = .next s

/-! ## Rules of the whole machine -/

/-- `phase` changes only at the end of stage 7, at a failure in INIT and at reset (10_state.md R21). -/
def Obligations.PhaseTransitions : Prop :=
  ∀ s t : State, step s = .next t →
    t.phase = s.phase ∨
    (s.phase = .init ∧ t.phase = .ready ∧ s.stage = 7#3 ∧ s.seq = []) ∨
    (s.phase = .init ∧ t.phase = .failed ∧ t.failStage = s.stage) ∨
    (t.phase = .init ∧ Quiescent s ∧ ∃ later, s.host = .reset :: later)

/-- `bl` changes only at reset, to 0, and on the way into stage 6, to 1 (10_state.md R23). -/
def Obligations.BacklightWriters : Prop :=
  ∀ s t : State, step s = .next t →
    t.bl = s.bl ∨ (t.bl = 0#1 ∧ ∃ later, s.host = .reset :: later) ∨
    (t.bl = 1#1 ∧ s.phase = .init ∧ t.stage = 6#3)

/-- `fail_stage` is written only by the init-failure path and by reset (10_state.md R24). -/
def Obligations.FailStageWriters : Prop :=
  ∀ s t : State, step s = .next t →
    t.failStage = s.failStage ∨ (t.failStage = 0#3 ∧ ∃ later, s.host = .reset :: later) ∨
    (s.phase = .init ∧ t.phase = .failed ∧ t.failStage = s.stage)

/-- No step writes the build's arguments (00_scope.md R9). -/
def Obligations.ConfigurationFixed : Prop :=
  ∀ s t : State, step s = .next t → t.cfg = s.cfg

/-- A step only adds events at the end of the trace (20_memory.md R60). -/
def Obligations.TraceOnlyGrows : Prop :=
  ∀ s t : State, step s = .next t → s.trace <+: t.trace

/-- From every state that meets the invariant, a step gives a state that meets it. -/
def Obligations.StepKeepsInvariant : Prop :=
  ∀ s t : State, BlockInv s → step s = .next t → BlockInv t

/-- The state right after reset meets the invariant. -/
def Obligations.ResetMeetsInvariant : Prop := BlockInv State.reset

/-- Every write goes to the expander's address with R/W = 0: from every state that meets the invariant, a step keeps the
trace so (20_memory.md R52, R55). -/
def Obligations.WritesStayClean : Prop :=
  ∀ s t : State, BlockInv s → TraceClean s → step s = .next t → TraceClean t

/-! ## Scripts and whole runs -/

/-- The sequencer, one action a step, does what `run(script)` says: it ends in the same state, fails at the same write, or
sticks at the same port (40_encoder.md R110, 10_state.md R27). -/
def Obligations.SequencerRunsScript : Prop :=
  ∀ (sc : Script) (s : State) (rest : List Instr),
    LegalStage s → s.host = [] → s.seq = Script.instrs sc ++ rest →
    (∀ u, run sc s = .ok u → Host.Core.run Sys2Proof.core sc.length s = .next { u with seq := rest }) ∧
    (∀ k u, run sc s = .busFail k u →
      ∃ n, n ≤ sc.length ∧ Host.Core.run Sys2Proof.core n s = .next (busFailure u)) ∧
    (∀ f, run sc s = .stuck f → ∃ n, n ≤ sc.length ∧ Host.Core.run Sys2Proof.core n s = .fault f)

/-- An initialization whose ports serve it emits the seven stages' scripts in order and ends READY, with one response,
for every build and whatever happened before (41_init_fsm.md R140 to R150, R152). -/
def Obligations.InitializationRuns : Prop :=
  ∀ s : State, s.phase = .init → s.stage = 1#3 → s.bl = 0#1 → s.host = [] →
    s.seq = Script.instrs (stageScript s.cfg 0#1 1#3) → PortsServe (initScript s.cfg) s →
    ∃ n, Host.Core.run Sys2Proof.core n s = .next { s with
      phase := .ready
      stage := 0#3
      bl := 1#1
      seq := []
      exp := lastWrite s.exp (initScript s.cfg)
      trace := s.trace ++ scriptEvents s.cfg.expanderAddr7 (initScript s.cfg) ++ [.r ⟨.initEnd, .ok, 0#3⟩]
      transport := s.transport.drop (scriptWrites (initScript s.cfg)).length
      delays := s.delays.drop (scriptWaits (initScript s.cfg)) }

/-- An initialization whose write number k + 1 fails emits the prefix of its scripts that ends at that write, then the
failure response with the stage the write belongs to, and ends FAILED (41_init_fsm.md R151, R152). -/
def Obligations.FailedInitializationEmitsPrefix : Prop :=
  ∀ (s : State) (k : Nat), s.phase = .init → s.stage = 1#3 → s.bl = 0#1 → s.host = [] →
    s.seq = Script.instrs (stageScript s.cfg 0#1 1#3) → k < 35 →
    s.transport.Gives .ok k → (s.transport.drop k).head = .fail →
    s.delays.Gives .elapsed (scriptWaits (initScript s.cfg)) →
    ∃ (n : Nat) (before after : Script) (v : Byte) (t : State), initScript s.cfg = before ++ .w v :: after ∧ (scriptWrites before).length = k ∧
      Host.Core.run Sys2Proof.core n s = .next t ∧
      t.phase = .failed ∧ t.stage = 0#3 ∧ t.seq = [] ∧
      t.failStage = (if k < 1 then 1#3 else if k < 10 then 2#3 else if k < 16 then 3#3 else if k < 22 then 4#3
        else if k < 28 then 5#3 else if k < 29 then 6#3 else 7#3) ∧
      t.bl = (if k < 28 then 0#1 else 1#1) ∧
      (t.exp = v ∨ t.exp = lastWrite s.exp before) ∧
      t.trace = s.trace ++ scriptEvents s.cfg.expanderAddr7 before
        ++ [.w s.cfg.expanderAddr7 v .fail, .r ⟨.initEnd, .busFail, t.failStage⟩]

/-- A request presented in READY whose ports serve it emits its whole script and then one OK response, and leaves the
block READY and free (42_runtime_ops.md R170, R172 to R175). -/
def Obligations.RequestsRunToTheirResponse : Prop :=
  ∀ (s : State) (w : ReqWord) (sc : Script),
    s.phase = .ready → s.stage = 0#3 → s.busy = false → s.host = [.request w] →
    requestScript s.cfg s.bl w = some sc → PortsServe sc s →
    ∃ n, Host.Core.run Sys2Proof.core n s = .next { s with
      host := []
      seq := []
      exp := lastWrite s.exp sc
      trace := s.trace ++ scriptEvents s.cfg.expanderAddr7 sc ++ [.r ⟨.request, .ok, 0#3⟩]
      transport := s.transport.drop (scriptWrites sc).length
      delays := s.delays.drop (scriptWaits sc) }

/-- A request whose write number k + 1 fails emits the prefix of its script that ends at that write, then one BUS_FAIL
response, and leaves the block READY and free (42_runtime_ops.md R171, R175). -/
def Obligations.FailedRequestEmitsPrefix : Prop :=
  ∀ (s : State) (w : ReqWord) (sc : Script) (k : Nat),
    s.phase = .ready → s.stage = 0#3 → s.busy = false → s.host = [.request w] →
    requestScript s.cfg s.bl w = some sc → k < (scriptWrites sc).length →
    s.transport.Gives .ok k → (s.transport.drop k).head = .fail → s.delays.Gives .elapsed (scriptWaits sc) →
    ∃ (n : Nat) (before after : Script) (v : Byte) (t : State), sc = before ++ .w v :: after ∧ (scriptWrites before).length = k ∧
      Host.Core.run Sys2Proof.core n s = .next t ∧
      t.phase = .ready ∧ t.stage = 0#3 ∧ t.busy = false ∧ t.seq = [] ∧ t.host = [] ∧ t.bl = s.bl ∧
      (t.exp = v ∨ t.exp = lastWrite s.exp before) ∧
      t.trace = s.trace ++ scriptEvents s.cfg.expanderAddr7 before
        ++ [.w s.cfg.expanderAddr7 v .fail, .r ⟨.request, .busFail, 0#3⟩]

/-- The writes, enable pulses and delay sums of what each request loads into `seq` (42_runtime_ops.md R179), with
`T_SETUP` left open; a request that is not accepted loads nothing and adds one response. -/
def Obligations.RequestCounts : Prop :=
  (∀ (s : State) (w : ReqWord), s.phase = .ready → s.busy = false → reqReserved w = false →
    ∃ t, exec (decodeReq w) s = .next t ∧
      (seqWrites t.seq).length + (seqDelays t.seq).length = t.seq.length ∧
      (reqOp w = 3#3 →
        (seqWrites t.seq).length = 246 ∧ (seqWrites t.seq).countP (fun v => v.getLsbD 2) = 82 ∧
        (seqDelays t.seq).sum = 164 + 82 * s.cfg.tSetup + s.cfg.tHome) ∧
      (reqOp w ≠ 3#3 →
        (seqWrites t.seq).length = 6 ∧ (seqWrites t.seq).countP (fun v => v.getLsbD 2) = 2 ∧
        (seqDelays t.seq).sum = 4 + 2 * s.cfg.tSetup + if reqOp w = 2#3 then s.cfg.tHome else 0)) ∧
  (∀ (s : State) (w : ReqWord), s.busy = false → (reqReserved w = true ∨ s.phase ≠ .ready) →
    ∃ t r, exec (decodeReq w) s = .next t ∧ t.seq = s.seq ∧ t.trace = s.trace ++ [.r r])

/-- What a request loads into `seq` has no delay but the enable-pulse holds, `T_SETUP` and `T_HOME`
(42_runtime_ops.md R177). -/
def Obligations.NoAutomaticDelays : Prop :=
  ∀ (s : State) (w : ReqWord), s.phase = .ready → s.busy = false → reqReserved w = false →
    ∃ t, exec (decodeReq w) s = .next t ∧ ∀ d ∈ seqDelays t.seq,
      d = 1 ∨ d = s.cfg.tSetup ∨ (d = s.cfg.tHome ∧ (reqOp w = 2#3 ∨ reqOp w = 3#3))

/-- With the default arguments and ports that serve it, the initialization adds exactly the trace of 41_init_fsm.md R150:
35 writes, 11 enable pulses and a delay sum of 802 ms (R154). -/
def Obligations.InitializationTable : Prop :=
  ∀ (s : State) (a : DevAddr), s.phase = .init → s.stage = 1#3 → s.bl = 0#1 → s.host = [] →
    s.seq = [.delay 600, .expWrite 0x00#8] → s.cfg = ⟨a, 0x2#4, 0x0C#8, 0, 0, 0, 0⟩ →
    s.transport.Gives .ok 35 → s.delays.Gives .elapsed 30 →
    ∃ (n : Nat) (t : State) (new : List Event), Host.Core.run Sys2Proof.core n s = .next t ∧
      t.phase = .ready ∧ t.stage = 0#3 ∧ t.bl = 1#1 ∧ t.seq = [] ∧ t.exp = 0x18#8 ∧
      t.failStage = s.failStage ∧ t.busy = s.busy ∧ t.cfg = s.cfg ∧
      t.trace = s.trace ++ new ++ [.r ⟨.initEnd, .ok, 0#3⟩] ∧
      new =
        [.d 600, .w a 0x00#8 .ok]
        ++ pulseEvents a 0x20#8 0x24#8 ++ [.d 5] ++ pulseEvents a 0x20#8 0x24#8 ++ [.d 5]
        ++ pulseEvents a 0x20#8 0x24#8 ++ [.d 5]
        ++ pulseEvents a 0x20#8 0x24#8 ++ pulseEvents a 0x80#8 0x84#8 ++ [.d 150]
        ++ pulseEvents a 0x00#8 0x04#8 ++ pulseEvents a 0xC0#8 0xC4#8 ++ [.d 5]
        ++ pulseEvents a 0x00#8 0x04#8 ++ pulseEvents a 0x60#8 0x64#8 ++ [.d 5]
        ++ [.w a 0x08#8 .ok, .d 5]
        ++ pulseEvents a 0x08#8 0x0C#8 ++ pulseEvents a 0x18#8 0x1C#8 ∧
      (eventWrites new).length = 35 ∧ (eventWrites new).countP (fun v => v.getLsbD 2) = 11 ∧
      (eventDelays new).sum = 802

/-- A run of LINE2 and then LINE1 adds the Return-Home and the 40 cursor-right words of LINE2 with its response, and ends
with the same Return-Home and response that a run of LINE1 alone adds (42_runtime_ops.md R178). The second request stands
presented while the first one runs. -/
def Obligations.LastWordIsReturnHome : Prop :=
  ∀ (s : State) (line2 line1 : ReqWord) (home right : List Event),
    s.phase = .ready → s.stage = 0#3 → s.busy = false → reqOp line2 = 3#3 → reqOp line1 = 2#3 →
    s.transport.Gives .ok 252 → s.delays.Gives .elapsed 254 →
    home = scriptEvents s.cfg.expanderAddr7 (wordPulses s.cfg 0x02#8 s.bl 0#1 ++ wait s.cfg.tHome) →
    right = scriptEvents s.cfg.expanderAddr7 (wordPulses s.cfg 0x14#8 s.bl 0#1) →
    (s.host = [.request line2, .request line1] →
      ∃ n t, Host.Core.run Sys2Proof.core n s = .next t ∧
        t.phase = .ready ∧ t.busy = false ∧ t.seq = [] ∧ t.host = [] ∧
        t.trace = s.trace ++ home ++ (List.replicate 40 right).flatten ++ [.r ⟨.request, .ok, 0#3⟩]
          ++ home ++ [.r ⟨.request, .ok, 0#3⟩]) ∧
    (s.host = [.request line1] →
      ∃ n t, Host.Core.run Sys2Proof.core n s = .next t ∧
        t.phase = .ready ∧ t.busy = false ∧ t.seq = [] ∧ t.host = [] ∧
        t.trace = s.trace ++ home ++ [.r ⟨.request, .ok, 0#3⟩])

/-- Every instruction that performs a script stops at whichever of its writes fails, with what stands before it done and
nothing after it, and the failure path of the operation it runs in follows (40_encoder.md R112 to R119, 30_encoding.md R90).
That a controller word or a payload is an instruction is the model's choice (log 8, log 9), and so is the end outside any
operation (log 16). -/
def Obligations.FailedTransfersStop : Prop :=
  ∀ (s : State) (v n8 rs : Byte) (cb : BitVec 2) (db : Nibble) (bt r : Bit),
    StopsAtFailedWrite (.expWrite v) [.w v] s ∧
    StopsAtFailedWrite .blWrite [.w (payloadWord 0#4 s.bl 0#1 0#1)] s ∧
    StopsAtFailedWrite (.sendNibble n8 rs) (nibblePulse s.cfg (n8.extractLsb' 4 4) s.bl (rs.extractLsb' 0 1)) s ∧
    StopsAtFailedWrite (.sendByte v rs) (wordPulses s.cfg v s.bl (rs.extractLsb' 0 1)) s ∧
    StopsAtFailedWrite (.sendCommand v) (wordPulses s.cfg v s.bl 0#1) s ∧
    StopsAtFailedWrite (.sendCharacter v) (wordPulses s.cfg v s.bl 1#1) s ∧
    StopsAtFailedWrite .irClear (wordPulses s.cfg 0x01#8 s.bl 0#1) s ∧
    StopsAtFailedWrite .irHome (wordPulses s.cfg 0x02#8 s.bl 0#1) s ∧
    StopsAtFailedWrite .irEntryMode (wordPulses s.cfg 0x06#8 s.bl 0#1) s ∧
    StopsAtFailedWrite (.irDisplayControl cb) (wordPulses s.cfg (0x0C#8 ||| cb.setWidth 8) s.bl 0#1) s ∧
    StopsAtFailedWrite .irCursorRight (wordPulses s.cfg 0x14#8 s.bl 0#1) s ∧
    StopsAtFailedWrite .irFunctionSet (wordPulses s.cfg 0x28#8 s.bl 0#1) s ∧
    StopsAtFailedWrite (.irCommand v) (wordPulses s.cfg v s.bl 0#1) s ∧
    StopsAtFailedWrite (.irData v) (wordPulses s.cfg v s.bl 1#1) s ∧
    StopsAtFailedWrite .irForceNibble (nibblePulse s.cfg s.cfg.forceNibble s.bl 0#1) s ∧
    StopsAtFailedWrite (.expStrobe db bt r) [.w (payloadWord db bt 1#1 r)] s ∧
    StopsAtFailedWrite (.expSettleRelease db bt r) [.w (payloadWord db bt 0#1 r)] s ∧
    StopsAtFailedWrite (.expBacklightOnly bt) [.w (payloadWord 0#4 bt 0#1 0#1)] s
end

