-- ==== Sys2Proof/Laws/Payloads.lean ====
section
/-! SUPPORT. The payloads of Machine/Operands.lean are those of the bit map (20_memory.md R55), and the scripts are the
transfers written from it. -/
namespace Sys2Proof.Machine

/-- RS is bit 0. -/
@[simp] theorem payloadWord_registerSelect (db : Nibble) (bt en rs : Bit) :
    (payloadWord db bt en rs)[0] = rs[0] := by
  simp [payloadWord]

/-- R/W is 0 in every payload. -/
@[simp] theorem payloadWord_readWrite (db : Nibble) (bt en rs : Bit) :
    (payloadWord db bt en rs)[1] = false := by
  simp [payloadWord]

/-- EN is bit 2. -/
@[simp] theorem payloadWord_enable (db : Nibble) (bt en rs : Bit) :
    (payloadWord db bt en rs)[2] = en[0] := by
  simp [payloadWord]

@[simp] theorem payloadWord_backlight (db : Nibble) (bt en rs : Bit) :
    (payloadWord db bt en rs).extractLsb' 3 1 = bt := by
  apply BitVec.eq_of_getLsbD_eq
  intro i hi
  obtain rfl : i = 0 := by omega
  simp [payloadWord]

@[simp] theorem payloadWord_data (db : Nibble) (bt en rs : Bit) :
    (payloadWord db bt en rs).extractLsb' 4 4 = db := by
  apply BitVec.eq_of_getLsbD_eq
  intro i hi
  have h : i = 0 ∨ i = 1 ∨ i = 2 ∨ i = 3 := by omega
  rcases h with rfl | rfl | rfl | rfl <;> simp [payloadWord]

/-- Dropping EN from a strobe gives its release. -/
@[simp] theorem payloadWord_release (db : Nibble) (bt rs : Bit) :
    payloadWord db bt 1#1 rs &&& 0xFB#8 = payloadWord db bt 0#1 rs := by
  apply BitVec.eq_of_getLsbD_eq
  intro i hi
  have h : i = 0 ∨ i = 1 ∨ i = 2 ∨ i = 3 ∨ i = 4 ∨ i = 5 ∨ i = 6 ∨ i = 7 := by omega
  rcases h with rfl | rfl | rfl | rfl | rfl | rfl | rfl | rfl <;>
    simp [payloadWord]

theorem settlePayload_eq (bl : Bit) (n8 rs : Byte) :
    settlePayload bl n8 rs = payloadWord (n8.extractLsb' 4 4) bl 0#1 (rs.extractLsb' 0 1) := by
  apply BitVec.eq_of_getLsbD_eq
  intro i hi
  have h : i = 0 ∨ i = 1 ∨ i = 2 ∨ i = 3 ∨ i = 4 ∨ i = 5 ∨ i = 6 ∨ i = 7 := by omega
  rcases h with rfl | rfl | rfl | rfl | rfl | rfl | rfl | rfl <;>
    simp [settlePayload, backlightBit, payloadWord]

theorem strobePayload_eq (bl : Bit) (n8 rs : Byte) :
    strobePayload bl n8 rs = payloadWord (n8.extractLsb' 4 4) bl 1#1 (rs.extractLsb' 0 1) := by
  rw [strobePayload, settlePayload_eq]
  apply BitVec.eq_of_getLsbD_eq
  intro i hi
  have h : i = 0 ∨ i = 1 ∨ i = 2 ∨ i = 3 ∨ i = 4 ∨ i = 5 ∨ i = 6 ∨ i = 7 := by omega
  rcases h with rfl | rfl | rfl | rfl | rfl | rfl | rfl | rfl <;>
    simp [payloadWord]

theorem backlightBit_eq (bl : Bit) : backlightBit bl = payloadWord 0#4 bl 0#1 0#1 := by
  apply BitVec.eq_of_getLsbD_eq
  intro i hi
  have h : i = 0 ∨ i = 1 ∨ i = 2 ∨ i = 3 ∨ i = 4 ∨ i = 5 ∨ i = 6 ∨ i = 7 := by omega
  rcases h with rfl | rfl | rfl | rfl | rfl | rfl | rfl | rfl <;>
    simp [backlightBit, payloadWord]

/-- `nibScript` is one nibble transfer of bits 7:4 with RS from bit 0 (40_encoder.md R114). -/
theorem nibScript_eq (p : Params) (bl : Bit) (n8 rs : Byte) :
    nibScript p bl n8 rs = nibblePulse p (n8.extractLsb' 4 4) bl (rs.extractLsb' 0 1) := by
  simp [nibScript, nibblePulse, settlePayload_eq, strobePayload_eq, wait, tEnHigh, tEnHold]

theorem highNibble_data (v : Byte) : (v &&& 0xF0#8).extractLsb' 4 4 = v.extractLsb' 4 4 := by
  apply BitVec.eq_of_getLsbD_eq
  intro i hi
  have h : i = 0 ∨ i = 1 ∨ i = 2 ∨ i = 3 := by omega
  rcases h with rfl | rfl | rfl | rfl <;> simp

theorem lowNibble_data (v : Byte) : ((v <<< 4) &&& 0xF0#8).extractLsb' 4 4 = v.extractLsb' 0 4 := by
  apply BitVec.eq_of_getLsbD_eq
  intro i hi
  have h : i = 0 ∨ i = 1 ∨ i = 2 ∨ i = 3 := by omega
  rcases h with rfl | rfl | rfl | rfl <;> simp

theorem nibbleInPlace_data (n : Nibble) : (nibbleInPlace n).extractLsb' 4 4 = n := by
  apply BitVec.eq_of_getLsbD_eq
  intro i hi
  have h : i = 0 ∨ i = 1 ∨ i = 2 ∨ i = 3 := by omega
  rcases h with rfl | rfl | rfl | rfl <;> simp [nibbleInPlace]

/-- `byteScript` is two nibble transfers, bits 7:4 first (40_encoder.md R115). -/
theorem byteScript_eq (p : Params) (bl : Bit) (value rs : Byte) :
    byteScript p bl value rs = wordPulses p value bl (rs.extractLsb' 0 1) := by
  rw [byteScript, nibScript_eq, nibScript_eq, highNibble_data, lowNibble_data, wordPulses]

@[simp] theorem rsCommand_bit : rsCommand.extractLsb' 0 1 = 0#1 := by decide

@[simp] theorem rsCharacter_bit : rsCharacter.extractLsb' 0 1 = 1#1 := by decide

/-! ## The stages' and the requests' scripts -/

theorem powerSettleScript_eq (p : Params) (bl : Bit) : powerSettleScript p bl = stageScript p bl 1#3 := by
  simp [powerSettleScript, stageScript, wait, tPower, backlightScript, backlightBit_eq]

theorem forceFourBitScript_eq (p : Params) (bl : Bit) : forceFourBitScript p bl = stageScript p bl 2#3 := by
  simp only [forceFourBitScript, nibScript_eq, nibbleInPlace_data, rsCommand_bit]
  rfl

theorem functionSetScript_eq (p : Params) (bl : Bit) : functionSetScript p bl = stageScript p bl 3#3 := by
  simp only [functionSetScript, byteScript_eq, rsCommand_bit]
  rfl

theorem displayControlScript_eq (p : Params) (bl : Bit) : displayControlScript p bl = stageScript p bl 4#3 := by
  simp only [displayControlScript, byteScript_eq, rsCommand_bit]
  rfl

theorem entryModeScript_eq (p : Params) (bl : Bit) : entryModeScript p bl = stageScript p bl 5#3 := by
  simp only [entryModeScript, byteScript_eq, rsCommand_bit]
  rfl

theorem backlightOnScript_eq (p : Params) (bl : Bit) : backlightOnScript bl = stageScript p bl 6#3 := by
  simp [backlightOnScript, stageScript, wait, tBacklight, backlightScript, backlightBit_eq]

theorem clearDisplayScript_eq (p : Params) (bl : Bit) : clearDisplayScript p bl = stageScript p bl 7#3 := by
  simp only [clearDisplayScript, byteScript_eq, rsCommand_bit]
  rfl

theorem line1Script_eq (p : Params) (bl : Bit) :
    line1Script p bl = wordPulses p 0x02#8 bl 0#1 ++ wait p.tHome := by
  simp only [line1Script, byteScript_eq, rsCommand_bit]
  rfl

theorem line2Script_eq (p : Params) (bl : Bit) :
    line2Script p bl = wordPulses p 0x02#8 bl 0#1 ++ wait p.tHome
      ++ (List.replicate 40 (wordPulses p 0x14#8 bl 0#1)).flatten := by
  simp only [line2Script, byteScript_eq, rsCommand_bit]
  rfl

/-! ## The fields of a request word -/

@[simp] theorem reqOp_reqWord (op : BitVec 3) (data : Byte) : reqOp (reqWord op data) = op := by
  apply BitVec.eq_of_getLsbD_eq
  intro i hi
  have h : i = 0 ∨ i = 1 ∨ i = 2 := by omega
  rcases h with rfl | rfl | rfl <;> simp [reqOp, reqWord]

@[simp] theorem reqData_reqWord (op : BitVec 3) (data : Byte) : reqData (reqWord op data) = data := by
  apply BitVec.eq_of_getLsbD_eq
  intro i hi
  have h : i < 8 := by omega
  have h' : i < 11 := by omega
  simp [reqData, reqWord, h, h']

@[simp] theorem reqWord_fields (w : ReqWord) : reqWord (reqOp w) (reqData w) = w := by
  apply BitVec.eq_of_getLsbD_eq
  intro i hi
  simp only [reqWord, reqOp, reqData, BitVec.getLsbD_or, BitVec.getLsbD_shiftLeft, BitVec.getLsbD_setWidth, BitVec.getLsbD_extractLsb']
  by_cases h : i < 8
  · simp [h, hi]
  · have h3 : i - 8 < 3 := by omega
    simp [h, hi, h3, show i - 8 < 11 by omega, show 8 + (i - 8) = i by omega]

end Sys2Proof.Machine
end

