-- ==== Sys2Proof/Laws/State.lean ====
section
/-! SUPPORT. One lemma for each field and each named update of the state. -/
namespace Sys2Proof.Machine

/-! ## emit -/

@[simp] theorem emit_cfg (e : Event) (s : State) : (emit e s).cfg = s.cfg := rfl
@[simp] theorem emit_phase (e : Event) (s : State) : (emit e s).phase = s.phase := rfl
@[simp] theorem emit_stage (e : Event) (s : State) : (emit e s).stage = s.stage := rfl
@[simp] theorem emit_bl (e : Event) (s : State) : (emit e s).bl = s.bl := rfl
@[simp] theorem emit_failStage (e : Event) (s : State) : (emit e s).failStage = s.failStage := rfl
@[simp] theorem emit_busy (e : Event) (s : State) : (emit e s).busy = s.busy := rfl
@[simp] theorem emit_seq (e : Event) (s : State) : (emit e s).seq = s.seq := rfl
@[simp] theorem emit_exp (e : Event) (s : State) : (emit e s).exp = s.exp := rfl
@[simp] theorem emit_trace (e : Event) (s : State) : (emit e s).trace = s.trace ++ [e] := rfl
@[simp] theorem emit_host (e : Event) (s : State) : (emit e s).host = s.host := rfl
@[simp] theorem emit_transport (e : Event) (s : State) : (emit e s).transport = s.transport := rfl
@[simp] theorem emit_delays (e : Event) (s : State) : (emit e s).delays = s.delays := rfl
@[simp] theorem emit_draws (e : Event) (s : State) : (emit e s).draws = s.draws := rfl

/-! ## respond -/

@[simp] theorem respond_cfg (r : Response) (s : State) : (respond r s).cfg = s.cfg := rfl
@[simp] theorem respond_phase (r : Response) (s : State) : (respond r s).phase = s.phase := rfl
@[simp] theorem respond_stage (r : Response) (s : State) : (respond r s).stage = s.stage := rfl
@[simp] theorem respond_bl (r : Response) (s : State) : (respond r s).bl = s.bl := rfl
@[simp] theorem respond_failStage (r : Response) (s : State) : (respond r s).failStage = s.failStage := rfl
@[simp] theorem respond_busy (r : Response) (s : State) : (respond r s).busy = s.busy := rfl
@[simp] theorem respond_seq (r : Response) (s : State) : (respond r s).seq = s.seq := rfl
@[simp] theorem respond_exp (r : Response) (s : State) : (respond r s).exp = s.exp := rfl
@[simp] theorem respond_trace (r : Response) (s : State) : (respond r s).trace = s.trace ++ [.r r] := rfl
@[simp] theorem respond_host (r : Response) (s : State) : (respond r s).host = s.host := rfl
@[simp] theorem respond_transport (r : Response) (s : State) : (respond r s).transport = s.transport := rfl
@[simp] theorem respond_delays (r : Response) (s : State) : (respond r s).delays = s.delays := rfl
@[simp] theorem respond_draws (r : Response) (s : State) : (respond r s).draws = s.draws := rfl

/-! ## keepPresented -/

@[simp] theorem keepPresented_cfg (w : ReqWord) (s : State) : (keepPresented w s).cfg = s.cfg := rfl
@[simp] theorem keepPresented_phase (w : ReqWord) (s : State) : (keepPresented w s).phase = s.phase := rfl
@[simp] theorem keepPresented_stage (w : ReqWord) (s : State) : (keepPresented w s).stage = s.stage := rfl
@[simp] theorem keepPresented_bl (w : ReqWord) (s : State) : (keepPresented w s).bl = s.bl := rfl
@[simp] theorem keepPresented_failStage (w : ReqWord) (s : State) : (keepPresented w s).failStage = s.failStage := rfl
@[simp] theorem keepPresented_busy (w : ReqWord) (s : State) : (keepPresented w s).busy = s.busy := rfl
@[simp] theorem keepPresented_seq (w : ReqWord) (s : State) : (keepPresented w s).seq = s.seq := rfl
@[simp] theorem keepPresented_exp (w : ReqWord) (s : State) : (keepPresented w s).exp = s.exp := rfl
@[simp] theorem keepPresented_trace (w : ReqWord) (s : State) : (keepPresented w s).trace = s.trace := rfl
@[simp] theorem keepPresented_host (w : ReqWord) (s : State) : (keepPresented w s).host = .request w :: s.host := rfl
@[simp] theorem keepPresented_transport (w : ReqWord) (s : State) : (keepPresented w s).transport = s.transport := rfl
@[simp] theorem keepPresented_delays (w : ReqWord) (s : State) : (keepPresented w s).delays = s.delays := rfl
@[simp] theorem keepPresented_draws (w : ReqWord) (s : State) : (keepPresented w s).draws = s.draws := rfl

/-! ## startRequest -/

@[simp] theorem startRequest_cfg (sc : Script) (s : State) : (startRequest sc s).cfg = s.cfg := rfl
@[simp] theorem startRequest_phase (sc : Script) (s : State) : (startRequest sc s).phase = s.phase := rfl
@[simp] theorem startRequest_stage (sc : Script) (s : State) : (startRequest sc s).stage = s.stage := rfl
@[simp] theorem startRequest_bl (sc : Script) (s : State) : (startRequest sc s).bl = s.bl := rfl
@[simp] theorem startRequest_failStage (sc : Script) (s : State) : (startRequest sc s).failStage = s.failStage := rfl
@[simp] theorem startRequest_busy (sc : Script) (s : State) : (startRequest sc s).busy = true := rfl
@[simp] theorem startRequest_seq (sc : Script) (s : State) : (startRequest sc s).seq = sc.instrs := rfl
@[simp] theorem startRequest_exp (sc : Script) (s : State) : (startRequest sc s).exp = s.exp := rfl
@[simp] theorem startRequest_trace (sc : Script) (s : State) : (startRequest sc s).trace = s.trace := rfl
@[simp] theorem startRequest_host (sc : Script) (s : State) : (startRequest sc s).host = s.host := rfl
@[simp] theorem startRequest_transport (sc : Script) (s : State) : (startRequest sc s).transport = s.transport := rfl
@[simp] theorem startRequest_delays (sc : Script) (s : State) : (startRequest sc s).delays = s.delays := rfl
@[simp] theorem startRequest_draws (sc : Script) (s : State) : (startRequest sc s).draws = s.draws := rfl

/-! ## completeRequest -/

@[simp] theorem completeRequest_cfg (s : State) : (completeRequest s).cfg = s.cfg := rfl
@[simp] theorem completeRequest_phase (s : State) : (completeRequest s).phase = s.phase := rfl
@[simp] theorem completeRequest_stage (s : State) : (completeRequest s).stage = s.stage := rfl
@[simp] theorem completeRequest_bl (s : State) : (completeRequest s).bl = s.bl := rfl
@[simp] theorem completeRequest_failStage (s : State) : (completeRequest s).failStage = s.failStage := rfl
@[simp] theorem completeRequest_busy (s : State) : (completeRequest s).busy = false := rfl
@[simp] theorem completeRequest_seq (s : State) : (completeRequest s).seq = s.seq := rfl
@[simp] theorem completeRequest_exp (s : State) : (completeRequest s).exp = s.exp := rfl
@[simp] theorem completeRequest_trace (s : State) : (completeRequest s).trace = s.trace ++ [.r (requestDone .ok)] := rfl
@[simp] theorem completeRequest_host (s : State) : (completeRequest s).host = s.host := rfl
@[simp] theorem completeRequest_transport (s : State) : (completeRequest s).transport = s.transport := rfl
@[simp] theorem completeRequest_delays (s : State) : (completeRequest s).delays = s.delays := rfl
@[simp] theorem completeRequest_draws (s : State) : (completeRequest s).draws = s.draws := rfl

/-! ## completeInit -/

@[simp] theorem completeInit_cfg (s : State) : (completeInit s).cfg = s.cfg := rfl
@[simp] theorem completeInit_phase (s : State) : (completeInit s).phase = .ready := rfl
@[simp] theorem completeInit_stage (s : State) : (completeInit s).stage = 0#3 := rfl
@[simp] theorem completeInit_bl (s : State) : (completeInit s).bl = s.bl := rfl
@[simp] theorem completeInit_failStage (s : State) : (completeInit s).failStage = s.failStage := rfl
@[simp] theorem completeInit_busy (s : State) : (completeInit s).busy = s.busy := rfl
@[simp] theorem completeInit_seq (s : State) : (completeInit s).seq = s.seq := rfl
@[simp] theorem completeInit_exp (s : State) : (completeInit s).exp = s.exp := rfl
@[simp] theorem completeInit_trace (s : State) : (completeInit s).trace = s.trace ++ [.r initOk] := rfl
@[simp] theorem completeInit_host (s : State) : (completeInit s).host = s.host := rfl
@[simp] theorem completeInit_transport (s : State) : (completeInit s).transport = s.transport := rfl
@[simp] theorem completeInit_delays (s : State) : (completeInit s).delays = s.delays := rfl
@[simp] theorem completeInit_draws (s : State) : (completeInit s).draws = s.draws := rfl

/-! ## failInit -/

@[simp] theorem failInit_cfg (s : State) : (failInit s).cfg = s.cfg := rfl
@[simp] theorem failInit_phase (s : State) : (failInit s).phase = .failed := rfl
@[simp] theorem failInit_stage (s : State) : (failInit s).stage = 0#3 := rfl
@[simp] theorem failInit_bl (s : State) : (failInit s).bl = s.bl := rfl
@[simp] theorem failInit_failStage (s : State) : (failInit s).failStage = s.stage := rfl
@[simp] theorem failInit_busy (s : State) : (failInit s).busy = s.busy := rfl
@[simp] theorem failInit_seq (s : State) : (failInit s).seq = [] := rfl
@[simp] theorem failInit_exp (s : State) : (failInit s).exp = s.exp := rfl
@[simp] theorem failInit_trace (s : State) : (failInit s).trace = s.trace ++ [.r (initBusFail s.stage)] := rfl
@[simp] theorem failInit_host (s : State) : (failInit s).host = s.host := rfl
@[simp] theorem failInit_transport (s : State) : (failInit s).transport = s.transport := rfl
@[simp] theorem failInit_delays (s : State) : (failInit s).delays = s.delays := rfl
@[simp] theorem failInit_draws (s : State) : (failInit s).draws = s.draws := rfl

/-! ## beforeFailure -/

/-- What can go out before the failure response: nothing, or the answer to the request that stands presented. -/
theorem beforeFailure_cases (s : State) :
    (∃ d, beforeFailure s = { s with draws := d }) ∨
    (∃ w later d, s.busy = false ∧ s.host = .request w :: later ∧
      beforeFailure s = respond (answerOutsideReady w) { s with host := later, draws := d }) := by
  unfold beforeFailure
  split
  · exact .inl ⟨s.draws, rfl⟩
  · exact .inl ⟨s.draws, rfl⟩
  · exact .inl ⟨s.draws, rfl⟩
  · rename_i w later h
    by_cases hb : s.busy = true
    · exact .inl ⟨s.draws, by rw [if_pos hb]⟩
    · rw [if_neg hb]
      by_cases hr : Config.initResponseFirst s.draws = true
      · exact .inl ⟨s.draws + 1, by rw [if_pos hr]⟩
      · exact .inr ⟨w, later, s.draws + 1, by simpa using hb, h, by rw [if_neg hr]⟩

/-- With a silent host nothing goes out before the failure response. -/
theorem beforeFailure_silent {s : State} (h : s.host = []) : beforeFailure s = s := by
  simp only [beforeFailure, h]

/-- While `busy` = 1 nothing goes out before the failure response. -/
theorem beforeFailure_busy_true {s : State} (h : s.busy = true) : beforeFailure s = s := by
  unfold beforeFailure
  split <;> first | rfl | rw [if_pos h]

@[simp] theorem beforeFailure_cfg (s : State) : (beforeFailure s).cfg = s.cfg := by
  rcases beforeFailure_cases s with ⟨_, h⟩ | ⟨_, _, _, _, _, h⟩ <;> simp [h]
@[simp] theorem beforeFailure_phase (s : State) : (beforeFailure s).phase = s.phase := by
  rcases beforeFailure_cases s with ⟨_, h⟩ | ⟨_, _, _, _, _, h⟩ <;> simp [h]
@[simp] theorem beforeFailure_stage (s : State) : (beforeFailure s).stage = s.stage := by
  rcases beforeFailure_cases s with ⟨_, h⟩ | ⟨_, _, _, _, _, h⟩ <;> simp [h]
@[simp] theorem beforeFailure_bl (s : State) : (beforeFailure s).bl = s.bl := by
  rcases beforeFailure_cases s with ⟨_, h⟩ | ⟨_, _, _, _, _, h⟩ <;> simp [h]
@[simp] theorem beforeFailure_failStage (s : State) : (beforeFailure s).failStage = s.failStage := by
  rcases beforeFailure_cases s with ⟨_, h⟩ | ⟨_, _, _, _, _, h⟩ <;> simp [h]
@[simp] theorem beforeFailure_busy (s : State) : (beforeFailure s).busy = s.busy := by
  rcases beforeFailure_cases s with ⟨_, h⟩ | ⟨_, _, _, _, _, h⟩ <;> simp [h]
@[simp] theorem beforeFailure_seq (s : State) : (beforeFailure s).seq = s.seq := by
  rcases beforeFailure_cases s with ⟨_, h⟩ | ⟨_, _, _, _, _, h⟩ <;> simp [h]
@[simp] theorem beforeFailure_exp (s : State) : (beforeFailure s).exp = s.exp := by
  rcases beforeFailure_cases s with ⟨_, h⟩ | ⟨_, _, _, _, _, h⟩ <;> simp [h]
@[simp] theorem beforeFailure_transport (s : State) : (beforeFailure s).transport = s.transport := by
  rcases beforeFailure_cases s with ⟨_, h⟩ | ⟨_, _, _, _, _, h⟩ <;> simp [h]
@[simp] theorem beforeFailure_delays (s : State) : (beforeFailure s).delays = s.delays := by
  rcases beforeFailure_cases s with ⟨_, h⟩ | ⟨_, _, _, _, _, h⟩ <;> simp [h]

/-! ## initFailure -/

@[simp] theorem initFailure_cfg (s : State) : (initFailure s).cfg = s.cfg := by simp [initFailure]
@[simp] theorem initFailure_phase (s : State) : (initFailure s).phase = .failed := by simp [initFailure]
@[simp] theorem initFailure_stage (s : State) : (initFailure s).stage = 0#3 := by simp [initFailure]
@[simp] theorem initFailure_bl (s : State) : (initFailure s).bl = s.bl := by simp [initFailure]
@[simp] theorem initFailure_failStage (s : State) : (initFailure s).failStage = s.stage := by simp [initFailure]
@[simp] theorem initFailure_busy (s : State) : (initFailure s).busy = s.busy := by simp [initFailure]
@[simp] theorem initFailure_seq (s : State) : (initFailure s).seq = [] := by simp [initFailure]
@[simp] theorem initFailure_exp (s : State) : (initFailure s).exp = s.exp := by simp [initFailure]
theorem initFailure_trace (s : State) :
    (initFailure s).trace = (beforeFailure s).trace ++ [.r (initBusFail s.stage)] := by simp [initFailure]
theorem initFailure_host (s : State) : (initFailure s).host = (beforeFailure s).host := rfl
@[simp] theorem initFailure_transport (s : State) : (initFailure s).transport = s.transport := by simp [initFailure]
@[simp] theorem initFailure_delays (s : State) : (initFailure s).delays = s.delays := by simp [initFailure]
theorem initFailure_draws (s : State) : (initFailure s).draws = (beforeFailure s).draws := rfl

/-- With a silent host the failure response is all there is. -/
theorem initFailure_silent {s : State} (h : s.host = []) : initFailure s = failInit s := by
  unfold initFailure; rw [beforeFailure_silent h]

/-- The two orders of the responses at a failed initialization: the failure response alone, or the answer to the request
that stands presented and then the failure response. -/
theorem initFailure_responses (s : State) :
    ((initFailure s).host = s.host ∧ (initFailure s).trace = s.trace ++ [.r (initBusFail s.stage)]) ∨
    (∃ w later, s.busy = false ∧ s.host = .request w :: later ∧ (initFailure s).host = later ∧
      (initFailure s).trace = s.trace ++ [.r (answerOutsideReady w), .r (initBusFail s.stage)]) := by
  rw [initFailure_host, initFailure_trace]
  rcases beforeFailure_cases s with ⟨_, h⟩ | ⟨w, later, _, hb, hh, h⟩
  · exact .inl (by simp [h])
  · exact .inr ⟨w, later, hb, hh, by simp [h]⟩

/-- The initialization's failure adds responses only. -/
theorem initFailure_trace_grows (s : State) :
    ∃ answers, (initFailure s).trace = s.trace ++ answers ∧ ∀ e ∈ answers, ∃ r, e = .r r := by
  rcases initFailure_responses s with ⟨_, h⟩ | ⟨_, _, _, _, _, h⟩ <;> exact ⟨_, h, by simp⟩

/-! ## runtimeFailure -/

@[simp] theorem runtimeFailure_cfg (s : State) : (runtimeFailure s).cfg = s.cfg := rfl
@[simp] theorem runtimeFailure_phase (s : State) : (runtimeFailure s).phase = s.phase := rfl
@[simp] theorem runtimeFailure_stage (s : State) : (runtimeFailure s).stage = s.stage := rfl
@[simp] theorem runtimeFailure_bl (s : State) : (runtimeFailure s).bl = s.bl := rfl
@[simp] theorem runtimeFailure_failStage (s : State) : (runtimeFailure s).failStage = s.failStage := rfl
@[simp] theorem runtimeFailure_busy (s : State) : (runtimeFailure s).busy = false := rfl
@[simp] theorem runtimeFailure_seq (s : State) : (runtimeFailure s).seq = [] := rfl
@[simp] theorem runtimeFailure_exp (s : State) : (runtimeFailure s).exp = s.exp := rfl
@[simp] theorem runtimeFailure_trace (s : State) : (runtimeFailure s).trace = s.trace ++ [.r (requestDone .busFail)] := rfl
@[simp] theorem runtimeFailure_host (s : State) : (runtimeFailure s).host = s.host := rfl
@[simp] theorem runtimeFailure_transport (s : State) : (runtimeFailure s).transport = s.transport := rfl
@[simp] theorem runtimeFailure_delays (s : State) : (runtimeFailure s).delays = s.delays := rfl
@[simp] theorem runtimeFailure_draws (s : State) : (runtimeFailure s).draws = s.draws := rfl

/-! ## applyReset -/

@[simp] theorem applyReset_cfg (s : State) : (applyReset s).cfg = s.cfg := rfl
@[simp] theorem applyReset_phase (s : State) : (applyReset s).phase = .init := rfl
@[simp] theorem applyReset_stage (s : State) : (applyReset s).stage = 1#3 := rfl
@[simp] theorem applyReset_bl (s : State) : (applyReset s).bl = blReset := rfl
@[simp] theorem applyReset_failStage (s : State) : (applyReset s).failStage = 0#3 := rfl
@[simp] theorem applyReset_busy (s : State) : (applyReset s).busy = false := rfl
@[simp] theorem applyReset_seq (s : State) : (applyReset s).seq = Script.instrs (powerSettleScript s.cfg blReset) := rfl
@[simp] theorem applyReset_exp (s : State) : (applyReset s).exp = Config.expAtReset s.draws := rfl
@[simp] theorem applyReset_trace (s : State) : (applyReset s).trace = s.trace := rfl
@[simp] theorem applyReset_host (s : State) : (applyReset s).host = s.host := rfl
@[simp] theorem applyReset_transport (s : State) : (applyReset s).transport = s.transport := rfl
@[simp] theorem applyReset_delays (s : State) : (applyReset s).delays = s.delays := rfl
@[simp] theorem applyReset_draws (s : State) : (applyReset s).draws = s.draws + 1 := rfl

end Sys2Proof.Machine
end

