-- ==== Sys2Proof/Laws/Ops.lean ====
section
/-! SUPPORT. One lemma for each shared operation that says once what it can do. -/
namespace Sys2Proof.Machine

/-! ## Ports -/

@[simp] theorem Feed.gives_zero {α : Type} (a : α) (f : Feed α) : f.Gives a 0 := trivial

@[simp] theorem Feed.gives_succ {α : Type} (a : α) (n : Nat) (f : Feed α) :
    f.Gives a (n + 1) ↔ f.head = a ∧ f.tail.Gives a n := Iff.rfl

@[simp] theorem Feed.drop_zero {α : Type} (f : Feed α) : f.drop 0 = f := rfl

@[simp] theorem Feed.drop_succ {α : Type} (n : Nat) (f : Feed α) : f.drop (n + 1) = f.tail.drop n := rfl

theorem Feed.drop_add {α : Type} (m n : Nat) (f : Feed α) : f.drop (m + n) = (f.drop m).drop n := by
  induction m generalizing f with
  | zero => simp
  | succ m ih => simpa [Nat.succ_add] using ih f.tail

theorem Feed.gives_add {α : Type} (a : α) (m n : Nat) (f : Feed α) :
    f.Gives a (m + n) ↔ f.Gives a m ∧ (f.drop m).Gives a n := by
  induction m generalizing f with
  | zero => simp
  | succ m ih => simp [Nat.succ_add, ih, and_assoc]

/-- A port that gives `a` a number of times gives it any smaller number of times. -/
theorem Feed.gives_mono {α : Type} {a : α} {m n : Nat} {f : Feed α} (hmn : m ≤ n) (h : f.Gives a n) : f.Gives a m := by
  obtain ⟨k, rfl⟩ := Nat.exists_eq_add_of_le hmn
  exact ((Feed.gives_add a m k f).1 h).1

/-- A port that only ever gives `a` gives it any number of times. -/
theorem Feed.gives_always {α : Type} (a : α) (n : Nat) : (Feed.mk [] a).Gives a n := by
  induction n with
  | zero => trivial
  | succ n ih => exact ⟨rfl, ih⟩

/-! ## Scripts -/

@[simp] theorem scriptWrites_append (a b : Script) : scriptWrites (a ++ b) = scriptWrites a ++ scriptWrites b := by
  induction a with
  | nil => rfl
  | cons x a ih => cases x <;> simp [scriptWrites, ih]

@[simp] theorem scriptDelay_append (a b : Script) : scriptDelay (a ++ b) = scriptDelay a + scriptDelay b := by
  induction a with
  | nil => simp [scriptDelay]
  | cons x a ih => cases x <;> simp [scriptDelay, ih, Nat.add_assoc]

@[simp] theorem scriptWaits_append (a b : Script) : scriptWaits (a ++ b) = scriptWaits a + scriptWaits b := by
  induction a with
  | nil => simp [scriptWaits]
  | cons x a ih => cases x <;> simp [scriptWaits, ih, Nat.add_assoc]

@[simp] theorem scriptEvents_append (addr : DevAddr) (a b : Script) :
    scriptEvents addr (a ++ b) = scriptEvents addr a ++ scriptEvents addr b := by
  induction a with
  | nil => rfl
  | cons x a ih => cases x <;> simp [scriptEvents, ih, apply_ite]; split <;> rfl

@[simp] theorem lastWrite_append (old : Byte) (a b : Script) :
    lastWrite old (a ++ b) = lastWrite (lastWrite old a) b := by
  induction a generalizing old with
  | nil => rfl
  | cons x a ih => cases x <;> simp [lastWrite, ih]

@[simp] theorem Script.instrs_append (a b : Script) : Script.instrs (a ++ b) = a.instrs ++ b.instrs := by
  simp [Script.instrs]

@[simp] theorem afterScript_nil (s : State) : afterScript [] s = s := by
  simp [afterScript, lastWrite, scriptEvents, scriptWrites, scriptWaits]

/-- Running two scripts in a row leaves what running their concatenation leaves. -/
theorem afterScript_append (a b : Script) (s : State) : afterScript (a ++ b) s = afterScript b (afterScript a s) := by
  simp [afterScript, Feed.drop_add]

theorem portsServe_append (a b : Script) (s : State) :
    PortsServe (a ++ b) s ↔ PortsServe a s ∧ PortsServe b (afterScript a s) := by
  simp only [PortsServe, afterScript, scriptWrites_append, List.length_append, scriptWaits_append, Feed.gives_add]
  tauto

/-! ## One write, one delay -/

/-- A write answered OK leaves what its one-action script leaves. -/
theorem expWrite_ok {k : Nat} {v : Byte} {s : State} (h : s.transport.head = .ok) :
    expWrite k v s = .ok (afterScript [.w v] s) := by
  simp [expWrite, h, afterScript, lastWrite, scriptEvents, scriptWrites, scriptWaits, emit]

/-- A write answered FAIL: the event, the pins at the old byte or the attempted one, one answer used, one draw. -/
theorem expWrite_fail {k : Nat} {v : Byte} {s : State} (h : s.transport.head = .fail) :
    expWrite k v s = .busFail k { s with
      exp := if Config.failedWriteLatched s.draws then v else s.exp
      trace := s.trace ++ [.w s.cfg.expanderAddr7 v .fail]
      transport := s.transport.tail
      draws := s.draws + 1 } := by
  simp [expWrite, h, emit]

theorem expWrite_silent {k : Nat} {v : Byte} {s : State} (h : s.transport.head = .silent) :
    expWrite k v s = .stuck .transportSilent := by
  simp [expWrite, h]

@[simp] theorem delayFor_zero (s : State) : delayFor 0 s = .ok s := by simp [delayFor]

/-- A delay that elapses leaves what its one-action script leaves. -/
theorem delayFor_elapsed {t : Nat} {s : State} (h : s.delays.head = .elapsed) :
    delayFor t s = .ok (afterScript [.d t] s) := by
  by_cases ht : t = 0
  · subst ht; simp [afterScript, lastWrite, scriptEvents, scriptWrites, scriptWaits]
  · simp [delayFor, ht, h, afterScript, lastWrite, scriptEvents, scriptWrites, scriptWaits, emit]

theorem delayFor_never {t : Nat} {s : State} (ht : t ≠ 0) (h : s.delays.head = .never) :
    delayFor t s = .stuck .delayNeverEnds := by
  simp [delayFor, ht, h]

/-- A delay never fails a script (40_encoder.md R111). -/
theorem delayFor_cases (t : Nat) (s : State) :
    delayFor t s = .ok (afterScript [.d t] s) ∨ delayFor t s = .stuck .delayNeverEnds := by
  by_cases ht : t = 0
  · subst ht; left; simp [afterScript, lastWrite, scriptEvents, scriptWrites, scriptWaits]
  · cases h : s.delays.head
    · exact .inl (delayFor_elapsed h)
    · exact .inr (delayFor_never ht h)

/-! ## Running a script -/

/-- The fields no script changes. -/
structure SameBlock (s t : State) : Prop where
  cfg : t.cfg = s.cfg
  phase : t.phase = s.phase
  stage : t.stage = s.stage
  bl : t.bl = s.bl
  failStage : t.failStage = s.failStage
  busy : t.busy = s.busy
  seq : t.seq = s.seq
  host : t.host = s.host

theorem SameBlock.refl (s : State) : SameBlock s s := ⟨rfl, rfl, rfl, rfl, rfl, rfl, rfl, rfl⟩

theorem SameBlock.trans {s t u : State} (h : SameBlock s t) (h' : SameBlock t u) : SameBlock s u :=
  ⟨h'.cfg.trans h.cfg, h'.phase.trans h.phase, h'.stage.trans h.stage, h'.bl.trans h.bl,
    h'.failStage.trans h.failStage, h'.busy.trans h.busy, h'.seq.trans h.seq, h'.host.trans h.host⟩

theorem sameBlock_afterScript (sc : Script) (s : State) : SameBlock s (afterScript sc s) :=
  ⟨rfl, rfl, rfl, rfl, rfl, rfl, rfl, rfl⟩

/-- A script whose ports serve it runs to its end. -/
theorem runFrom_serves (k : Nat) (sc : Script) (s : State) (h : PortsServe sc s) :
    runFrom k sc s = .ok (afterScript sc s) := by
  induction sc generalizing k s with
  | nil => simp [runFrom]
  | cons a rest ih =>
    have hsplit := (portsServe_append [a] rest s).1 h
    rw [show a :: rest = [a] ++ rest from rfl, afterScript_append]
    cases a with
    | w v =>
      have hv : s.transport.head = .ok := hsplit.1.1.1
      simp [runFrom, expWrite_ok hv, ih _ _ hsplit.2]
    | d t =>
      rcases delayFor_cases t s with hd | hd
      · simp [runFrom, hd, ih _ _ hsplit.2]
      · by_cases ht : t = 0
        · subst ht; simp at hd
        · have he : s.delays.head = .elapsed := by
            have h2 := hsplit.1.2
            simp [scriptWaits, ht] at h2
            exact h2
          rw [delayFor_elapsed he] at hd
          cases hd

/-- A script that runs to its end leaves what `afterScript` says. -/
theorem runFrom_ok {k : Nat} {sc : Script} {s t : State} (h : runFrom k sc s = .ok t) : t = afterScript sc s := by
  induction sc generalizing k s with
  | nil => simp [runFrom] at h; simp [h]
  | cons a rest ih =>
    rw [show a :: rest = [a] ++ rest from rfl, afterScript_append]
    cases a with
    | w v =>
      cases hv : s.transport.head with
      | ok => simp only [runFrom, expWrite_ok hv] at h; exact ih h
      | fail => simp [runFrom, expWrite_fail hv] at h
      | silent => simp [runFrom, expWrite_silent hv] at h
    | d t' =>
      rcases delayFor_cases t' s with hd | hd
      · simp only [runFrom, hd] at h; exact ih h
      · simp [runFrom, hd] at h

/-- A failed write after a script `before` that ran to its end. -/
def afterFailedWrite (before : Script) (v : Byte) (s : State) : State :=
  { afterScript before s with
    exp := if Config.failedWriteLatched s.draws then v else lastWrite s.exp before
    trace := s.trace ++ scriptEvents s.cfg.expanderAddr7 before ++ [.w s.cfg.expanderAddr7 v .fail]
    transport := (s.transport.drop (scriptWrites before).length).tail
    draws := s.draws + 1 }

theorem sameBlock_afterFailedWrite (before : Script) (v : Byte) (s : State) :
    SameBlock s (afterFailedWrite before v s) := ⟨rfl, rfl, rfl, rfl, rfl, rfl, rfl, rfl⟩

/-- A script that fails stops at a write of it: everything before was done, nothing after (40_encoder.md R112). -/
theorem runFrom_busFail {k n : Nat} {sc : Script} {s t : State} (h : runFrom k sc s = .busFail n t) :
    ∃ before v after, sc = before ++ .w v :: after ∧ n = k + (scriptWrites before).length + 1 ∧
      t = afterFailedWrite before v s := by
  induction sc generalizing k s with
  | nil => simp [runFrom] at h
  | cons a rest ih =>
    cases a with
    | w v =>
      cases hv : s.transport.head with
      | ok =>
        simp only [runFrom, expWrite_ok hv] at h
        obtain ⟨before, v', after, rfl, rfl, rfl⟩ := ih h
        refine ⟨.w v :: before, v', after, rfl, by simp [scriptWrites]; omega, ?_⟩
        simp [afterFailedWrite, afterScript, lastWrite, scriptEvents, scriptWrites, scriptWaits]
      | fail =>
        simp only [runFrom, expWrite_fail hv, RunResult.busFail.injEq] at h
        obtain ⟨rfl, rfl⟩ := h
        exact ⟨[], v, rest, rfl, by simp [scriptWrites], by
          simp [afterFailedWrite, afterScript, lastWrite, scriptEvents, scriptWrites, scriptWaits]⟩
      | silent => simp [runFrom, expWrite_silent hv] at h
    | d t' =>
      rcases delayFor_cases t' s with hd | hd
      · simp only [runFrom, hd] at h
        obtain ⟨before, v', after, rfl, rfl, rfl⟩ := ih h
        refine ⟨.d t' :: before, v', after, rfl, by simp [scriptWrites], ?_⟩
        by_cases ht : t' = 0 <;>
          simp [afterFailedWrite, afterScript, lastWrite, scriptEvents, scriptWrites, scriptWaits, ht, Feed.drop_add]
      · simp [runFrom, hd] at h

/-- A script whose write number `n` + 1 will be answered FAIL, and whose delays elapse, fails at that write. -/
theorem runFrom_fails (k n : Nat) (sc : Script) (s : State) (hn : n < (scriptWrites sc).length)
    (h1 : s.transport.Gives .ok n) (h2 : (s.transport.drop n).head = .fail)
    (hd : s.delays.Gives .elapsed (scriptWaits sc)) :
    ∃ before v after, sc = before ++ .w v :: after ∧ (scriptWrites before).length = n ∧
      runFrom k sc s = .busFail (k + n + 1) (afterFailedWrite before v s) := by
  induction sc generalizing k n s with
  | nil => simp [scriptWrites] at hn
  | cons a sc ih =>
    cases a with
    | w v =>
      cases n with
      | zero =>
        have h2 : s.transport.head = .fail := h2
        refine ⟨[], v, sc, rfl, rfl, ?_⟩
        simp [runFrom, expWrite_fail h2, afterFailedWrite, afterScript, lastWrite, scriptEvents, scriptWrites,
          scriptWaits]
      | succ n =>
        have hv : s.transport.head = .ok := h1.1
        obtain ⟨b, v', a, e, hl, hr⟩ :=
          ih (k + 1) n (afterScript [.w v] s) (by simpa [scriptWrites] using hn) h1.2 h2 hd
        refine ⟨.w v :: b, v', a, by rw [e]; rfl, by simp [scriptWrites, hl], ?_⟩
        simp only [runFrom, expWrite_ok hv, hr]
        simp [afterFailedWrite, afterScript, lastWrite, scriptEvents, scriptWrites, scriptWaits]
        omega
    | d t =>
      have hsplit : s.delays.Gives .elapsed (scriptWaits [.d t]) ∧
          (s.delays.drop (scriptWaits [.d t])).Gives .elapsed (scriptWaits sc) := by
        rw [← Feed.gives_add, ← scriptWaits_append]; exact hd
      have e2 : delayFor t s = .ok (afterScript [.d t] s) := by
        rcases delayFor_cases t s with h | h
        · exact h
        · by_cases ht : t = 0
          · subst ht; simp at h
          · have hw := hsplit.1
            simp [scriptWaits, ht] at hw
            exact delayFor_elapsed hw
      obtain ⟨b, v', a, e, hl, hr⟩ := ih k n (afterScript [.d t] s) hn h1 h2 hsplit.2
      refine ⟨.d t :: b, v', a, by rw [e]; rfl, hl, ?_⟩
      simp only [runFrom, e2, hr]
      by_cases ht : t = 0 <;>
        simp [afterFailedWrite, afterScript, lastWrite, scriptEvents, scriptWrites, scriptWaits, ht, Feed.drop_add]

/-- What an instruction that runs a script answers. -/
theorem runScript_next {sc : Script} {s t : State} (h : runScript sc s = .next t) :
    t = afterScript sc s ∨
    ∃ before v after, sc = before ++ .w v :: after ∧ t = busFailure (afterFailedWrite before v s) := by
  unfold runScript run at h
  cases hr : runFrom 0 sc s with
  | ok u => rw [hr] at h; simp only [finish, Host.Outcome.next.injEq] at h; exact .inl (h ▸ runFrom_ok hr)
  | busFail k u =>
    rw [hr] at h; simp only [finish, Host.Outcome.next.injEq] at h
    obtain ⟨before, v, after, hsc, -, hu⟩ := runFrom_busFail hr
    exact .inr ⟨before, v, after, hsc, by rw [← h, hu]⟩
  | stuck f => rw [hr] at h; simp [finish] at h

/-- An instruction whose script the ports serve completes. -/
theorem runScript_serves {sc : Script} {s : State} (h : PortsServe sc s) :
    runScript sc s = .next (afterScript sc s) := by
  simp [runScript, run, runFrom_serves 0 sc s h, finish]

/-! ## Requests, stages, reset -/

/-- What a request that is not reserved answers. -/
theorem acceptRequest_cases (w : ReqWord) (sc : Script) (s : State) :
    (s.busy = true ∧ acceptRequest w sc s = .next (keepPresented w s)) ∨
    (s.busy = false ∧ s.phase ≠ .ready ∧ acceptRequest w sc s = .next (respond (requestDone .notReady) s)) ∨
    (s.busy = false ∧ s.phase = .ready ∧ acceptRequest w sc s = .next (startRequest sc s)) := by
  unfold acceptRequest
  cases hb : s.busy <;> by_cases hp : s.phase = .ready <;> simp [hp]

/-- What a reserved request answers. -/
theorem acceptReserved_cases (w : ReqWord) (s : State) :
    (s.busy = true ∧ acceptReserved w s = .next (keepPresented w s)) ∨
    (s.busy = false ∧ acceptReserved w s = .next (respond (requestDone .illegalOp) s)) := by
  unfold acceptReserved
  cases hb : s.busy <;> simp

/-- What entering a stage answers. -/
theorem enterStage_next {n : StageNum} {bl : Bit} {sc : Script} {s t : State} (h : enterStage n bl sc s = .next t) :
    s.phase = .init ∧ t = { s with stage := n, bl := bl, seq := sc.instrs } := by
  unfold enterStage at h
  split at h
  · exact ⟨‹_›, by simpa using h.symm⟩
  · cases h

/-- The failure path is the one of the enclosing operation. -/
theorem busFailure_cases (s : State) :
    (s.phase = .init ∧ busFailure s = initFailure s) ∨
    (s.phase ≠ .init ∧ s.busy = true ∧ busFailure s = runtimeFailure s) ∨
    (s.phase ≠ .init ∧ s.busy = false ∧ busFailure s = { s with seq := [] }) := by
  unfold busFailure
  cases hb : s.busy <;> by_cases hp : s.phase = .init <;> simp [hp]

/-- What the reset input answers. -/
theorem resetInput_cases (s : State) :
    (Quiescent s ∧ resetInput s = .next (applyReset s)) ∨
    (¬ Quiescent s ∧ resetInput s = .refused .resetNotQuiescent) := by
  unfold resetInput
  by_cases h : Quiescent s
  · exact .inl ⟨h, if_pos h⟩
  · exact .inr ⟨h, if_neg h⟩

end Sys2Proof.Machine
end

