-- ==== Sys2Proof/Laws/PerInstr.lean ====
section
/-! SUPPORT. The families of lemmas that hold one lemma for each constructor of Instr. -/
namespace Sys2Proof.Laws.EncodedWordFits

/-- The number an instruction is encoded as fits its format's width (30_encoding.md R80). -/
def Statement (i : Instr) : Prop := ∀ n, (encode i).1.width = some n → (encode i).2 < 2 ^ n

theorem of_toNat {n m : Nat} (w : BitVec m) (h : some m = some n) : w.toNat < 2 ^ n := by
  cases h; exact w.isLt

theorem wcmd (data : Byte) : Statement (.wcmd data) := fun _ h => of_toNat _ h
theorem wchr (data : Byte) : Statement (.wchr data) := fun _ h => of_toNat _ h
theorem line1 (data : Byte) : Statement (.line1 data) := fun _ h => of_toNat _ h
theorem line2 (data : Byte) : Statement (.line2 data) := fun _ h => of_toNat _ h
theorem rsv (op : BitVec 3) (data : Byte) : Statement (.rsv op data) := fun _ h => of_toNat _ h
theorem expWrite (v : Byte) : Statement (.expWrite v) := fun _ h => of_toNat _ h
theorem delay (t : Nat) : Statement (.delay t) := by intro n h; cases h
theorem blWrite : Statement (.blWrite) := by intro n h; cases h; decide
theorem sendNibble (n8 rs : Byte) : Statement (.sendNibble n8 rs) := fun _ h => of_toNat _ h
theorem sendByte (value rs : Byte) : Statement (.sendByte value rs) := fun _ h => of_toNat _ h
theorem sendCommand (value : Byte) : Statement (.sendCommand value) := fun _ h => of_toNat _ h
theorem sendCharacter (value : Byte) : Statement (.sendCharacter value) := fun _ h => of_toNat _ h
theorem initS1 : Statement (.initS1) := by intro n h; cases h; decide
theorem initS2 : Statement (.initS2) := by intro n h; cases h; decide
theorem initS3 : Statement (.initS3) := by intro n h; cases h; decide
theorem initS4 : Statement (.initS4) := by intro n h; cases h; decide
theorem initS5 : Statement (.initS5) := by intro n h; cases h; decide
theorem initS6 : Statement (.initS6) := by intro n h; cases h; decide
theorem initS7 : Statement (.initS7) := by intro n h; cases h; decide
theorem irClear : Statement (.irClear) := by intro n h; cases h; decide
theorem irHome : Statement (.irHome) := by intro n h; cases h; decide
theorem irEntryMode : Statement (.irEntryMode) := by intro n h; cases h; decide
theorem irDisplayControl (cb : BitVec 2) : Statement (.irDisplayControl cb) := fun _ h => of_toNat _ h
theorem irCursorRight : Statement (.irCursorRight) := by intro n h; cases h; decide
theorem irFunctionSet : Statement (.irFunctionSet) := by intro n h; cases h; decide
theorem irCommand (d : Byte) : Statement (.irCommand d) := fun _ h => of_toNat _ h
theorem irData (d : Byte) : Statement (.irData d) := fun _ h => of_toNat _ h
theorem irForceNibble : Statement (.irForceNibble) := by intro n h; cases h; decide
theorem expStrobe (db : Nibble) (bt rs : Bit) : Statement (.expStrobe db bt rs) := fun _ h => of_toNat _ h
theorem expSettleRelease (db : Nibble) (bt rs : Bit) : Statement (.expSettleRelease db bt rs) := fun _ h => of_toNat _ h
theorem expBacklightOnly (bt : Bit) : Statement (.expBacklightOnly bt) := fun _ h => of_toNat _ h

end Sys2Proof.Laws.EncodedWordFits
end

