-- ==== Sys2Proof/Laws/Sequencer.lean ====
section
/-! SUPPORT. What an instruction can do, and what a step can do: each said once. -/
namespace Sys2Proof.Machine

/-- The stages' numbers and their instructions. -/
theorem decodeStage_add_one {n : StageNum} (h0 : n ≠ 0#3) (h7 : n ≠ 7#3) : ∃ i, decodeStage (n + 1#3) = some i := by
  have h : ∀ n : StageNum, n ≠ 0#3 → n ≠ 7#3 → (decodeStage (n + 1#3)).isSome = true := by decide
  exact Option.isSome_iff_exists.1 (h n h0 h7)

/-- Entering a stage, from its number (41_init_fsm.md R148). -/
theorem exec_stage {n : StageNum} {i : Instr} (h : decodeStage n = some i) (s : State) :
    exec i s = enterStage n (if n = 6#3 then 1#1 else s.bl)
      (stageScript s.cfg (if n = 6#3 then 1#1 else s.bl) n) s := by
  have hn : n = 0#3 ∨ n = 1#3 ∨ n = 2#3 ∨ n = 3#3 ∨ n = 4#3 ∨ n = 5#3 ∨ n = 6#3 ∨ n = 7#3 := by
    clear h
    revert n
    decide
  rcases hn with rfl | rfl | rfl | rfl | rfl | rfl | rfl | rfl
  · cases h
  · cases h; simp [exec, execInitS1, powerSettleScript_eq]
  · cases h; simp [exec, execInitS2, forceFourBitScript_eq]
  · cases h; simp [exec, execInitS3, functionSetScript_eq]
  · cases h; simp [exec, execInitS4, displayControlScript_eq]
  · cases h; simp [exec, execInitS5, entryModeScript_eq]
  · cases h; simp [exec, execInitS6, blOn, backlightOnScript_eq s.cfg]
  · cases h; simp [exec, execInitS7, clearDisplayScript_eq]

/-- A word with a reserved op selects no script, and any other does. -/
theorem requestScript_reserved (p : Params) (bl : Bit) (w : ReqWord) :
    requestScript p bl w = none ↔ reqReserved w = true := by
  have h : ∀ op : BitVec 3, (op ≠ 0#3 ∧ op ≠ 1#3 ∧ op ≠ 2#3 ∧ op ≠ 3#3) ↔ op.getLsbD 2 = true := by decide
  have hbit : (reqOp w).getLsbD 2 = reqReserved w := by simp [reqOp, reqReserved]
  rw [← hbit, ← h]
  unfold requestScript
  split
  · simp_all
  split
  · simp_all
  split
  · simp_all
  split
  · simp_all
  · simp_all

/-- What a presented word does: the operation its `op` selects (42_runtime_ops.md R170). -/
theorem exec_decodeReq (w : ReqWord) (s : State) :
    exec (decodeReq w) s =
      match requestScript s.cfg s.bl w with
      | some sc => acceptRequest w sc s
      | none => acceptReserved w s := by
  have hw := reqWord_fields w
  unfold decodeReq requestScript
  split
  · rename_i h; simp [exec, execWcmd, byteScript_eq, ← h]
  split
  · rename_i h; simp [exec, execWchr, byteScript_eq, ← h]
  split
  · rename_i h; simp [exec, execLine1, line1Script_eq, ← h]
  split
  · rename_i h; simp [exec, execLine2, line2Script_eq, ← h]
  · simp [exec, execRsv]

/-- What an instruction is: a script that runs, a stage that is entered, a request or a reserved request. -/
theorem exec_cases (i : Instr) (s : State) :
    (∃ sc, exec i s = runScript sc s) ∨
    (∃ n, decodeStage n = some i) ∨
    (∃ w sc, requestScript s.cfg s.bl w = some sc ∧ exec i s = acceptRequest w sc s) ∨
    (∃ w, exec i s = acceptReserved w s) := by
  cases i
  case wcmd data =>
    exact .inr (.inr (.inl ⟨reqWord 0#3 data, _, by simp [requestScript]; rfl, by
      simp [exec, execWcmd, byteScript_eq]⟩))
  case wchr data =>
    exact .inr (.inr (.inl ⟨reqWord 1#3 data, _, by simp [requestScript]; rfl, by
      simp [exec, execWchr, byteScript_eq]⟩))
  case line1 data =>
    exact .inr (.inr (.inl ⟨reqWord 2#3 data, _, by simp [requestScript]; rfl, by
      simp [exec, execLine1, line1Script_eq]⟩))
  case line2 data =>
    exact .inr (.inr (.inl ⟨reqWord 3#3 data, _, by simp [requestScript]; rfl, by
      simp [exec, execLine2, line2Script_eq]⟩))
  case rsv op data => exact .inr (.inr (.inr ⟨_, rfl⟩))
  case initS1 => exact .inr (.inl ⟨1#3, rfl⟩)
  case initS2 => exact .inr (.inl ⟨2#3, rfl⟩)
  case initS3 => exact .inr (.inl ⟨3#3, rfl⟩)
  case initS4 => exact .inr (.inl ⟨4#3, rfl⟩)
  case initS5 => exact .inr (.inl ⟨5#3, rfl⟩)
  case initS6 => exact .inr (.inl ⟨6#3, rfl⟩)
  case initS7 => exact .inr (.inl ⟨7#3, rfl⟩)
  all_goals exact .inl ⟨_, rfl⟩

/-- When the host lets the sequencer take its step, the step is the sequencer's. -/
theorem hostLets_step {s : State} {later : List HostMove} (hl : LegalStage s) (h : HostLets s later) :
    step s = sequencerStep { s with host := later } := by
  rcases h with ⟨h1, rfl⟩ | h1 | ⟨hb, rfl, w, r, h1⟩
  · have hs : ({ s with host := [] } : State) = s := by rw [← h1]
    rw [hs]
    simp only [step, machineStep, if_pos hl, h1]
  · simp only [step, machineStep, if_pos hl, h1]
  · simp only [step, machineStep, if_pos hl, h1, requestStep, hb, if_true]
    rw [← h1, ← hb]

/-- What a step of the sequencer that answers a next state did. -/
theorem sequencerStep_next {s t : State} (h : sequencerStep s = .next t) :
    (∃ i rest, s.seq = i :: rest ∧ exec i { s with seq := rest } = .next t) ∨
    (InitEndDue s ∧ t = completeInit s) ∨
    (s.seq = [] ∧ s.phase = .init ∧ s.stage ≠ 7#3 ∧
      ∃ i, decodeStage (s.stage + 1#3) = some i ∧ exec i s = .next t) ∨
    (s.seq = [] ∧ s.phase = .ready ∧ s.busy = true ∧ t = completeRequest s) ∨
    (s.seq = [] ∧ s.phase ≠ .init ∧ (s.phase = .ready → s.busy = false) ∧ t = s) := by
  unfold sequencerStep at h
  cases hs : s.seq with
  | cons i rest => rw [hs] at h; exact .inl ⟨i, rest, rfl, h⟩
  | nil =>
    rw [hs] at h
    simp only [scriptEnd] at h
    cases hp : s.phase with
    | init =>
      rw [hp] at h
      by_cases h7 : s.stage = 7#3
      · simp only [h7, if_true, Host.Outcome.next.injEq] at h
        exact .inr (.inl ⟨⟨hp, h7, hs⟩, h.symm⟩)
      · simp only [h7, if_false] at h
        cases hd : decodeStage (s.stage + 1#3) with
        | none => rw [hd] at h; cases h
        | some i => rw [hd] at h; exact .inr (.inr (.inl ⟨rfl, rfl, h7, i, rfl, h⟩))
    | ready =>
      rw [hp] at h
      cases hb : s.busy with
      | true => simp [hb] at h; exact .inr (.inr (.inr (.inl ⟨rfl, rfl, rfl, h.symm⟩)))
      | false => simp [hb] at h; exact .inr (.inr (.inr (.inr ⟨rfl, by simp, by simp, h.symm⟩)))
    | failed =>
      rw [hp] at h
      simp only [Host.Outcome.next.injEq] at h
      exact .inr (.inr (.inr (.inr ⟨rfl, by simp, by simp, h.symm⟩)))

/-- What a step that answers a next state did: a reset, a request beside the end of INIT, a request, or a step of the
sequencer with the host idle, silent or waiting. -/
theorem step_next {s t : State} (h : step s = .next t) :
    LegalStage s ∧
    ((∃ later, s.host = .reset :: later ∧ Quiescent s ∧ t = applyReset { s with host := later }) ∨
     (∃ w later, s.host = .request w :: later ∧ s.busy = false ∧ InitEndDue s ∧ reqReserved w = false ∧
       t = initEndWithRequest { s with host := later }) ∨
     (∃ w later, s.host = .request w :: later ∧ s.busy = false ∧ ¬ (InitEndDue s ∧ reqReserved w = false) ∧
       exec (decodeReq w) { s with host := later } = .next t) ∨
     (∃ later, (s.host = later ∨ s.host = .idle :: later) ∧ (∀ w rest, s.host = .request w :: rest → s.busy = true) ∧
       (∀ rest, s.host ≠ .reset :: rest) ∧ sequencerStep { s with host := later } = .next t)) := by
  unfold step machineStep at h
  by_cases hl : LegalStage s
  · rw [if_pos hl] at h
    refine ⟨hl, ?_⟩
    cases hh : s.host with
    | nil =>
      rw [hh] at h
      have hs : ({ s with host := [] } : State) = s := by rw [← hh]
      exact .inr (.inr (.inr ⟨[], .inl rfl, by simp, by simp, by rw [hs]; exact h⟩))
    | cons m later =>
      rw [hh] at h
      cases m with
      | idle => exact .inr (.inr (.inr ⟨later, .inr rfl, by simp, by simp, h⟩))
      | reset =>
        rcases resetInput_cases { s with host := later } with ⟨hq, hr⟩ | ⟨-, hr⟩
        · simp only [hr, Host.Outcome.next.injEq] at h
          exact .inl ⟨later, rfl, hq, h.symm⟩
        · simp [hr] at h
      | request w =>
        simp only [requestStep] at h
        by_cases hb : s.busy = true
        · rw [if_pos hb] at h
          have hs : ({ s with host := .request w :: later } : State) = s := by rw [← hh]
          refine .inr (.inr (.inr ⟨.request w :: later, .inl rfl, fun _ _ _ => hb, by simp, ?_⟩))
          rw [hs]; exact h
        · rw [if_neg hb] at h
          rw [Bool.not_eq_true] at hb
          by_cases hd : InitEndDue s ∧ reqReserved w = false
          · rw [if_pos hd] at h
            exact .inr (.inl ⟨w, later, rfl, hb, hd.1, hd.2, (Host.Outcome.next.inj h).symm⟩)
          · rw [if_neg hd] at h
            exact .inr (.inr (.inl ⟨w, later, rfl, hb, hd, h⟩))
  · rw [if_neg hl] at h; cases h

end Sys2Proof.Machine
end

