-- ==== Sys2Proof/Laws/Scripts.lean ====
section
/-! SUPPORT. The scripts the block runs keep what the invariant asks of `seq`: the backlight bit, R/W = 0, no delay of 0,
and every strobe held and released. -/
namespace Sys2Proof.Machine

/-- A script whose items the block can hold, and which keeps EN owned in front of anything that does. -/
def ScriptOk (bl : Bit) (sc : Script) : Prop :=
  (∀ i ∈ sc.instrs, SeqItemOk bl i) ∧ ∀ rest, EnOwned rest → EnOwned (sc.instrs ++ rest)

theorem ScriptOk.items {bl : Bit} {sc : Script} (h : ScriptOk bl sc) :
    (∀ i ∈ sc.instrs, SeqItemOk bl i) ∧ EnOwned sc.instrs := by
  refine ⟨h.1, ?_⟩
  simpa using h.2 [] trivial

theorem ScriptOk.nil {bl : Bit} : ScriptOk bl [] := ⟨by simp [Script.instrs], fun _ h => h⟩

theorem ScriptOk.append {bl : Bit} {a b : Script} (ha : ScriptOk bl a) (hb : ScriptOk bl b) : ScriptOk bl (a ++ b) := by
  refine ⟨fun i hi => ?_, fun r h => ?_⟩
  · rw [Script.instrs_append, List.mem_append] at hi
    exact hi.elim (ha.1 i) (hb.1 i)
  · rw [Script.instrs_append, List.append_assoc]
    exact ha.2 _ (hb.2 _ h)

theorem ScriptOk.wait {bl : Bit} {t : Nat} : ScriptOk bl (wait t) := by
  unfold Machine.wait
  split
  · exact .nil
  · refine ⟨?_, fun _ h => h⟩
    simpa [Script.instrs, ScriptAction.instr, SeqItemOk]

theorem ScriptOk.delay {bl : Bit} {t : Nat} (h : t ≠ 0) : ScriptOk bl [.d t] := by
  have hw : [ScriptAction.d t] = Machine.wait t := by simp [Machine.wait, h]
  rw [hw]
  exact .wait

theorem ScriptOk.pulse {p : Params} {db : Nibble} {bl rs : Bit} : ScriptOk bl (nibblePulse p db bl rs) := by
  have tail : ScriptOk bl [.w (payloadWord db bl 1#1 rs), .d 1, .w (payloadWord db bl 0#1 rs), .d 1] := by
    refine ⟨?_, fun r h => ?_⟩
    · simp [Script.instrs, ScriptAction.instr, SeqItemOk]
    · simp [Script.instrs, ScriptAction.instr, EnOwned, h]
  have head : ScriptOk bl [.w (payloadWord db bl 0#1 rs)] := by
    refine ⟨?_, fun r h => ?_⟩
    · simp [Script.instrs, ScriptAction.instr, SeqItemOk]
    · simp [Script.instrs, ScriptAction.instr, EnOwned, h]
  exact (head.append .wait).append tail

theorem ScriptOk.word {p : Params} {d : Byte} {bl rs : Bit} : ScriptOk bl (wordPulses p d bl rs) :=
  ScriptOk.pulse.append .pulse

theorem ScriptOk.backlight {bl : Bit} : ScriptOk bl [.w (payloadWord 0#4 bl 0#1 0#1)] := by
  refine ⟨?_, fun r h => ?_⟩
  · simp [Script.instrs, ScriptAction.instr, SeqItemOk]
  · simp [Script.instrs, ScriptAction.instr, EnOwned, h]

theorem ScriptOk.replicate {bl : Bit} {a : Script} (n : Nat) (ha : ScriptOk bl a) :
    ScriptOk bl (List.replicate n a).flatten := by
  induction n with
  | zero => exact .nil
  | succ n ih => rw [List.replicate_succ, List.flatten_cons]; exact ha.append ih

theorem ScriptOk.stage {p : Params} {bl : Bit} {n : StageNum} : ScriptOk bl (stageScript p bl n) := by
  unfold stageScript
  split; · exact ((ScriptOk.delay (by decide)).append .backlight).append .wait
  split; · exact .replicate 3 (ScriptOk.pulse.append (.delay (by decide)))
  split; · exact ScriptOk.word.append (.delay (by decide))
  split; · exact ScriptOk.word.append (.delay (by decide))
  split; · exact ScriptOk.word.append (.delay (by decide))
  split; · exact ScriptOk.backlight.append (.delay (by decide))
  split; · exact ScriptOk.word.append .wait
  exact .nil

theorem ScriptOk.request {p : Params} {bl : Bit} {w : ReqWord} {sc : Script} (h : requestScript p bl w = some sc) :
    ScriptOk bl sc := by
  unfold requestScript at h
  repeat' split at h
  all_goals cases h
  · exact .word
  · exact .word
  · exact ScriptOk.word.append .wait
  · exact (ScriptOk.word.append .wait).append (.replicate 40 .word)

/-! ## How many writes, and how long -/

@[simp] theorem scriptWrites_wait (t : Nat) : scriptWrites (wait t) = [] := by unfold wait; split <;> rfl

@[simp] theorem scriptDelay_wait (t : Nat) : scriptDelay (wait t) = t := by
  unfold wait; split <;> simp [scriptDelay]; omega

theorem nibblePulse_writes (p : Params) (db : Nibble) (bt rs : Bit) :
    scriptWrites (nibblePulse p db bt rs) =
      [payloadWord db bt 0#1 rs, payloadWord db bt 1#1 rs, payloadWord db bt 0#1 rs] := by
  simp [nibblePulse, scriptWrites]

theorem nibblePulse_delay (p : Params) (db : Nibble) (bt rs : Bit) :
    scriptDelay (nibblePulse p db bt rs) = 2 + p.tSetup := by
  simp [nibblePulse, scriptDelay]; omega

theorem wordPulses_writes_length (p : Params) (d : Byte) (bt rs : Bit) :
    (scriptWrites (wordPulses p d bt rs)).length = 6 := by
  simp [wordPulses, nibblePulse_writes]

theorem wordPulses_delay (p : Params) (d : Byte) (bt rs : Bit) :
    scriptDelay (wordPulses p d bt rs) = 4 + 2 * p.tSetup := by
  simp [wordPulses, nibblePulse_delay]; omega

/-- Copies of a script: their writes, what they hold of a kind, and their delays. -/
theorem scriptCounts_replicate (q : Byte → Bool) (n : Nat) (a : Script) :
    (scriptWrites (List.replicate n a).flatten).length = n * (scriptWrites a).length ∧
    (scriptWrites (List.replicate n a).flatten).countP q = n * (scriptWrites a).countP q ∧
    scriptDelay (List.replicate n a).flatten = n * scriptDelay a := by
  induction n with
  | zero => simp [scriptWrites, scriptDelay]
  | succ n ih =>
    simp only [List.replicate_succ, List.flatten_cons, scriptWrites_append, scriptDelay_append, List.length_append,
      List.countP_append, ih, Nat.succ_mul]
    omega

/-! ## A script as it stands in `seq` -/

@[simp] theorem seqWrites_nil : seqWrites [] = [] := rfl
@[simp] theorem seqWrites_write (v : Byte) (rest : List Instr) :
    seqWrites (.expWrite v :: rest) = v :: seqWrites rest := rfl
@[simp] theorem seqWrites_delay (t : Nat) (rest : List Instr) : seqWrites (.delay t :: rest) = seqWrites rest := rfl
@[simp] theorem seqDelays_nil : seqDelays [] = [] := rfl
@[simp] theorem seqDelays_write (v : Byte) (rest : List Instr) : seqDelays (.expWrite v :: rest) = seqDelays rest := rfl
@[simp] theorem seqDelays_delay (t : Nat) (rest : List Instr) : seqDelays (.delay t :: rest) = t :: seqDelays rest := rfl
theorem Script.instrs_write (v : Byte) (sc : Script) : Script.instrs (.w v :: sc) = .expWrite v :: sc.instrs := rfl
theorem Script.instrs_delay (t : Nat) (sc : Script) : Script.instrs (.d t :: sc) = .delay t :: sc.instrs := rfl

@[simp] theorem seqWrites_instrs (sc : Script) : seqWrites sc.instrs = scriptWrites sc := by
  induction sc with
  | nil => rfl
  | cons a sc ih => cases a <;> simp [Script.instrs_write, Script.instrs_delay, scriptWrites, ih]

@[simp] theorem seqDelays_sum_instrs (sc : Script) : (seqDelays sc.instrs).sum = scriptDelay sc := by
  induction sc with
  | nil => rfl
  | cons a sc ih => cases a <;> simp [Script.instrs_write, Script.instrs_delay, scriptDelay, ih]

@[simp] theorem mem_seqDelays_instrs (sc : Script) (t : Nat) : t ∈ seqDelays sc.instrs ↔ ScriptAction.d t ∈ sc := by
  induction sc with
  | nil => simp [Script.instrs]
  | cons a sc ih => cases a <;> simp [Script.instrs_write, Script.instrs_delay, ih]

/-- Nothing but writes and delays stands in a script. -/
theorem seqWrites_add_seqDelays (sc : Script) :
    (seqWrites sc.instrs).length + (seqDelays sc.instrs).length = sc.instrs.length := by
  induction sc with
  | nil => rfl
  | cons a sc ih =>
    cases a <;> simp only [Script.instrs_write, Script.instrs_delay, seqWrites_write, seqWrites_delay, seqDelays_write,
      seqDelays_delay, List.length_cons] <;> omega

/-! ## Runs -/

/-- Running on from where a run stopped. -/
theorem core_run_add {m n : Nat} {s t : State} (h : Host.Core.run Sys2Proof.core m s = .next t) :
    Host.Core.run Sys2Proof.core (m + n) s = Host.Core.run Sys2Proof.core n t := by
  induction m generalizing s with
  | zero => cases h; simp
  | succ m ih =>
    rw [Nat.succ_add]
    simp only [Host.Core.run] at h ⊢
    cases hs : Sys2Proof.core.step s with
    | next u => rw [hs] at h; exact ih h
    | fault f => rw [hs] at h; cases h
    | refused f => rw [hs] at h; cases h

/-- A run of one step. -/
theorem core_run_one {s t : State} (h : step s = .next t) : Host.Core.run Sys2Proof.core 1 s = .next t := by
  have hs : Sys2Proof.core.step s = .next t := h
  simp only [Host.Core.run, hs]

end Sys2Proof.Machine
end

