-- ==== Sys2Proof/Tests/Slice0.lean ====
section
/-! SUPPORT. Tests. Expected values are copied from the spec: the encodings of spec/opcode_table.json and
30_encoding.md, and the vectors V1 to V54 and L1-1 to L1-11 of 95_test_vectors.md. The witnesses show, for each
obligation with hypotheses, a state and operands that meet them. -/
namespace Sys2Proof.Tests
open Sys2Proof Sys2Proof.Machine

/-! ## States -/

/-- The default arguments of 00_scope.md R9, with an address for `A`. -/
def cfg : Params := ⟨0x27#7, 0x2#4, 0x0C#8, 0, 0, 0, 0⟩

/-- A small state: ports that serve everything, an empty trace. -/
def base : State where
  cfg := cfg
  phase := .ready
  stage := 0#3
  bl := 1#1
  failStage := 0#3
  busy := false
  seq := []
  exp := 0x18#8
  trace := []
  host := []
  transport := ⟨[], .ok⟩
  delays := ⟨[], .elapsed⟩
  draws := 0

/-- The block in stage `n`, with the backlight bit `b` and the rest of a script. -/
def inStage (n : StageNum) (b : Bit) (seq : List Instr) : State :=
  { base with phase := .init, stage := n, bl := b, seq := seq }

/-- The block after an initialization that failed in stage 3. -/
def failed : State := { base with phase := .failed, failStage := 3#3, bl := 0#1 }

/-- The block while a request runs. -/
def running (seq : List Instr) : State := { base with busy := true, seq := seq }

/-- A transport that answers OK `n` times, then FAIL. -/
def failsAfter (n : Nat) : Feed TransportAnswer := ⟨List.replicate n .ok ++ [.fail], .ok⟩

/-- A write answered OK, and one answered FAIL. -/
def W (v : Byte) : Event := .w 0x27#7 v .ok
/-- A write answered FAIL. -/
def Wfail (v : Byte) : Event := .w 0x27#7 v .fail
/-- A delay. -/
def D (t : Nat) : Event := .d t

/-- One nibble transfer as the vectors write it: settle, strobe, hold, release, hold. -/
def pulse (settle strobe : Byte) : List Event := [W settle, W strobe, D 1, W settle, D 1]

/-- What a result shows of its next state. -/
def after {α : Type} (f : State → α) (r : Result) : Option α :=
  match r with
  | .next s => some (f s)
  | .fault _ => none
  | .refused _ => none

/-- The fault a result names. -/
def faultOf (r : Result) : Option Fault :=
  match r with
  | .next _ => none
  | .fault f => some f
  | .refused _ => none

/-- The refusal a result names. -/
def refusalOf (r : Result) : Option Refusal :=
  match r with
  | .next _ => none
  | .fault _ => none
  | .refused f => some f

/-! ## WellFormed: an ill-formed term for each check -/

theorem test_wellformed_op : (Instr.rsv 3#3 0#8).illFormed? = some .opNotReserved := by decide
theorem test_wellformed_nibble : (Instr.sendNibble 0x3F#8 0#8).illFormed? = some .nibbleLowBits := by decide
theorem test_wellformed_control : (Instr.sendNibble 0x30#8 0x07#8).illFormed? = some .controlHighBits := by decide
theorem test_wellformed_good : WellFormed (.rsv 4#3 0xFF#8) ∧ WellFormed (.sendNibble 0xF0#8 1#8) := by decide

/-! ## Decode: every constructor, by a word written out from its encoding -/

/-- 30_encoding.md R81, R82: `op` in bits 10:8, `data` in bits 7:0. -/
theorem test_decode_requests :
    decode .req 0b00000110000 = .ok (.wcmd 0x30#8) ∧ decode .req 0b00111111111 = .ok (.wchr 0xFF#8) ∧
    decode .req 0b01000000000 = .ok (.line1 0x00#8) ∧ decode .req 0b01110000001 = .ok (.line2 0x81#8) ∧
    decode .req 0b10000000000 = .ok (.rsv 4#3 0x00#8) ∧ decode .req 0b10100000000 = .ok (.rsv 5#3 0x00#8) ∧
    decode .req 0b11110101011 = .ok (.rsv 7#3 0xAB#8) := by decide

/-- The programs of 95_test_vectors.md P2, P4 and P5. -/
theorem test_decode_programs :
    decode .req 0x148 = .ok (.wchr 0x48#8) ∧ decode .req 0x300 = .ok (.line2 0#8) ∧
    decode .req 0x200 = .ok (.line1 0#8) ∧ decode .req 0x001 = .ok (.wcmd 0x01#8) ∧
    decode .req 0x500 = .ok (.rsv 5#3 0#8) := by decide

/-- The INTERNAL rows of the table. -/
theorem test_decode_primitives :
    decode .expWrite 0b01001001 = .ok (.expWrite 0x49#8) ∧ decode .delay 600 = .ok (.delay 600) ∧
    decode .blWrite 0b00001000 = .ok .blWrite ∧ decode .sendNibble 0b01000001 = .ok (.sendNibble 0x40#8 1#8) ∧
    decode (.sendByte 1#8) 0b10100101 = .ok (.sendByte 0xA5#8 1#8) ∧
    decode .sendCommand 0b010000000 = .ok (.sendCommand 0x80#8) ∧
    decode .sendCharacter 0b101001000 = .ok (.sendCharacter 0x48#8) := by decide

/-- The `stage` register, 10_state.md R22. -/
theorem test_decode_stages :
    decode .initStage 0b001 = .ok .initS1 ∧ decode .initStage 0b010 = .ok .initS2 ∧
    decode .initStage 0b011 = .ok .initS3 ∧ decode .initStage 0b100 = .ok .initS4 ∧
    decode .initStage 0b101 = .ok .initS5 ∧ decode .initStage 0b110 = .ok .initS6 ∧
    decode .initStage 0b111 = .ok .initS7 := by decide

/-- 30_encoding.md R87: the controller words, RS in bit 8. -/
theorem test_decode_words :
    decode .irOwn 0b000000001 = .ok .irClear ∧ decode .irOwn 0b000000010 = .ok .irHome ∧
    decode .irOwn 0b000000110 = .ok .irEntryMode ∧ decode .irOwn 0b000001100 = .ok (.irDisplayControl 0#2) ∧
    decode .irOwn 0b000001111 = .ok (.irDisplayControl 3#2) ∧ decode .irOwn 0b000010100 = .ok .irCursorRight ∧
    decode .irOwn 0b000101000 = .ok .irFunctionSet ∧ decode .irPass 0b010000000 = .ok (.irCommand 0x80#8) ∧
    decode .irPass 0b101000001 = .ok (.irData 0x41#8) := by decide

/-- 30_encoding.md R85, 20_memory.md R55: data in 7:4, BT in 3, EN in 2, R/W in 1, RS in 0. -/
theorem test_decode_payloads :
    decode .exp 0b01001101 = .ok (.expStrobe 4#4 1#1 1#1) ∧
    decode .exp 0b10000000 = .ok (.expSettleRelease 8#4 0#1 0#1) ∧
    decode .expBacklight 0b00001000 = .ok (.expBacklightOnly 1#1) ∧
    decode .expForce 0b00100100 = .ok .irForceNibble := by decide

/-- The model's choice of log 27: a byte 0x2n is the force nibble whatever its BT, EN and RS bits are, and never with R/W
set. -/
theorem test_force_nibble_ignores_rs :
    (∀ w ∈ [0x20, 0x21, 0x25, 0x29, 0x2D], decodeTableWord 8 w = some .irForceNibble) ∧
    decode .expForce 0x22 = .error .readWriteSet ∧ decode .exp 0x21 = .ok (.expSettleRelease 2#4 0#1 1#1) := by decide

/-- Words no row has. -/
theorem test_decode_rejects :
    decode .exp 0b00000010 = .error .readWriteSet ∧ decode .expBacklight 0b00010000 = .error .fixedBits ∧
    decode .irOwn 0x100 = .error .notOwnWord ∧ decode .sendCommand 0x100 = .error .registerSelect ∧
    decode .initStage 0 = .error .noStage ∧ decode .req 0x800 = .error .tooWide := by decide

theorem test_decode_bytes :
    decodeBytes .req [0x41#8, 0x01#8] = .ok (.wchr 0x41#8) ∧ decodeBytes .irOwn [0x28#8, 0#8] = .ok .irFunctionSet := by
  decide

/-- A word of which only the size is known. -/
theorem test_decode_table_words :
    decodeTableWord 16 0x300 = some (.line2 0#8) ∧ decodeTableWord 16 0x028 = some .irFunctionSet ∧
    decodeTableWord 8 0x24 = some .irForceNibble ∧ decodeTableWord 8 0x04 = some (.expStrobe 0#4 0#1 0#1) ∧
    decodeTableWord 8 0x06 = some .initS6 ∧ decodeTableWord 16 0x800 = none := by decide

/-- The encoder writes the words of 30_encoding.md R81 and R87. -/
theorem test_encode :
    encode (.rsv 7#3 0xAB#8) = (.req, 0x7AB) ∧ encode (.irDisplayControl 3#2) = (.irOwn, 0x00F) ∧
    encode (.expStrobe 4#4 1#1 1#1) = (.exp, 0x4D) ∧ encode .initS7 = (.initStage, 7) := by decide

/-- 30_encoding.md R84: the response words. -/
theorem test_response_words :
    responseWord ⟨.initEnd, .busFail, 3#3⟩ = 0b001011#6 ∧ responseWord ⟨.request, .notReady, 0#3⟩ = 0b110000#6 ∧
    responseWord ⟨.request, .illegalOp, 0#3⟩ = 0b111000#6 := by decide

/-- 10_state.md R21, 92_eei_decisions.md D2: the status port. -/
theorem test_status_port : statusPort failed = ⟨0b10#2, 0#3, 0#1, 3#3⟩ ∧ statusPort base = ⟨0b01#2, 0#3, 1#1, 0#3⟩ := by
  decide

/-! ## Requests: one exec each -/

/-- V40, V43, V45: the scripts accepted requests run. -/
theorem test_wcmd : after State.seq (exec (.wcmd 0x01#8) base) = some
    [.expWrite 0x08#8, .expWrite 0x0C#8, .delay 1, .expWrite 0x08#8, .delay 1,
     .expWrite 0x18#8, .expWrite 0x1C#8, .delay 1, .expWrite 0x18#8, .delay 1] := by decide

theorem test_wchr : after State.seq (exec (.wchr 0x41#8) base) = some
    [.expWrite 0x49#8, .expWrite 0x4D#8, .delay 1, .expWrite 0x49#8, .delay 1,
     .expWrite 0x19#8, .expWrite 0x1D#8, .delay 1, .expWrite 0x19#8, .delay 1] := by decide

/-- V46: the operand is ignored. -/
theorem test_line1 : after State.seq (exec (.line1 0xFF#8) base) = some
    [.expWrite 0x08#8, .expWrite 0x0C#8, .delay 1, .expWrite 0x08#8, .delay 1,
     .expWrite 0x28#8, .expWrite 0x2C#8, .delay 1, .expWrite 0x28#8, .delay 1] := by decide

/-- V47: 246 writes, and the first shift after Home. -/
theorem test_line2 : (scriptWrites (line2Script cfg 1#1)).length = 246 ∧ scriptDelay (line2Script cfg 1#1) = 164 ∧
    after (fun s => (s.seq.drop 10).take 10) (exec (.line2 0#8) base) = some
      [.expWrite 0x18#8, .expWrite 0x1C#8, .delay 1, .expWrite 0x18#8, .delay 1,
       .expWrite 0x48#8, .expWrite 0x4C#8, .delay 1, .expWrite 0x48#8, .delay 1] := by decide +kernel

/-- V50, V51: ILLEGAL_OP, in INIT too. -/
theorem test_rsv : after State.trace (exec (.rsv 5#3 0#8) base) = some [.r ⟨.request, .illegalOp, 0#3⟩] ∧
    after State.trace (exec (.rsv 7#3 0xAB#8) (inStage 3#3 0#1 [.delay 150])) =
      some [.r ⟨.request, .illegalOp, 0#3⟩] := by decide

/-- V52, V53: NOT_READY in INIT and in FAILED. -/
theorem test_not_ready : after State.trace (exec (.wchr 0x41#8) (inStage 3#3 0#1 [.delay 150])) =
      some [.r ⟨.request, .notReady, 0#3⟩] ∧
    after State.trace (exec (.wcmd 0x01#8) failed) = some [.r ⟨.request, .notReady, 0#3⟩] := by decide

/-! ## Primitives -/

theorem test_expWrite : after (fun s => (s.exp, s.trace)) (exec (.expWrite 0xA5#8) base) =
    some (0xA5#8, [W 0xA5#8]) := by decide

/-- V18: a delay of 0 is no event. -/
theorem test_delay : after State.trace (exec (.delay 0) base) = some [] ∧
    after State.trace (exec (.delay 5) base) = some [D 5] := by decide

/-- V13, V14. -/
theorem test_blWrite : after State.trace (exec .blWrite { base with bl := 0#1 }) = some [W 0x00#8] ∧
    after State.trace (exec .blWrite base) = some [W 0x08#8] := by decide

/-- V3: bits 3:0 of the operand are discarded. -/
theorem test_sendNibble_low_bits :
    after State.trace (exec (.sendNibble 0x3F#8 0#8) base) = some (pulse 0x38#8 0x3C#8) := by decide

/-- V4: bits 7:1 of the control operand are discarded. -/
theorem test_sendNibble_control_bits :
    after State.trace (exec (.sendNibble 0x00#8 0x07#8) { base with bl := 0#1 }) =
      some (pulse 0x01#8 0x05#8) := by decide

/-- V10, and V15: FAIL at write 2, after which nothing is done. -/
theorem test_sendByte : after State.trace (exec (.sendByte 0xA5#8 1#8) { base with bl := 0#1 }) =
    some (pulse 0xA1#8 0xA5#8 ++ pulse 0x51#8 0x55#8) := by decide

theorem test_sendByte_fails :
    after State.trace (exec (.sendByte 0x41#8 1#8) { base with transport := failsAfter 1 }) =
      some [W 0x49#8, Wfail 0x4D#8] := by decide

/-- V11. -/
theorem test_sendCommand : after State.trace (exec (.sendCommand 0x80#8) base) =
    some (pulse 0x88#8 0x8C#8 ++ pulse 0x08#8 0x0C#8) := by decide

/-- V12. -/
theorem test_sendCharacter : after State.trace (exec (.sendCharacter 0x48#8) base) =
    some (pulse 0x49#8 0x4D#8 ++ pulse 0x89#8 0x8D#8) := by decide

/-! ## Stages: the scripts of 41_init_fsm.md R150 -/

theorem test_initS1 : after State.seq (exec .initS1 (inStage 1#3 0#1 [])) = some [.delay 600, .expWrite 0x00#8] := by
  decide

/-- V27: `FORCE_NIBBLE` = 0x3. -/
theorem test_initS2 :
    after State.seq (exec .initS2 { inStage 1#3 0#1 [] with cfg := { cfg with forceNibble := 0x3#4 } }) = some
      [.expWrite 0x30#8, .expWrite 0x34#8, .delay 1, .expWrite 0x30#8, .delay 1, .delay 5,
       .expWrite 0x30#8, .expWrite 0x34#8, .delay 1, .expWrite 0x30#8, .delay 1, .delay 5,
       .expWrite 0x30#8, .expWrite 0x34#8, .delay 1, .expWrite 0x30#8, .delay 1, .delay 5] := by decide

/-- L1-2. -/
theorem test_initS3 : after State.seq (exec .initS3 (inStage 2#3 0#1 [])) = some
    [.expWrite 0x20#8, .expWrite 0x24#8, .delay 1, .expWrite 0x20#8, .delay 1,
     .expWrite 0x80#8, .expWrite 0x84#8, .delay 1, .expWrite 0x80#8, .delay 1, .delay 150] := by decide

/-- V26: `CMD_DISPLAY_CONTROL` = 0x0F. -/
theorem test_initS4 :
    after State.seq (exec .initS4 { inStage 3#3 0#1 [] with cfg := { cfg with cmdDisplayControl := 0x0F#8 } }) = some
      [.expWrite 0x00#8, .expWrite 0x04#8, .delay 1, .expWrite 0x00#8, .delay 1,
       .expWrite 0xF0#8, .expWrite 0xF4#8, .delay 1, .expWrite 0xF0#8, .delay 1, .delay 5] := by decide

theorem test_initS5 : after State.seq (exec .initS5 (inStage 4#3 0#1 [])) = some
    [.expWrite 0x00#8, .expWrite 0x04#8, .delay 1, .expWrite 0x00#8, .delay 1,
     .expWrite 0x60#8, .expWrite 0x64#8, .delay 1, .expWrite 0x60#8, .delay 1, .delay 5] := by decide

/-- The backlight bit is set before the write (41_init_fsm.md R146). -/
theorem test_initS6 : after (fun s => (s.bl, s.stage, s.seq)) (exec .initS6 (inStage 5#3 0#1 [])) =
    some (1#1, 6#3, [.expWrite 0x08#8, .delay 5]) := by decide

/-- L1-6: Clear, with no delay after it. -/
theorem test_initS7 : after State.seq (exec .initS7 (inStage 6#3 1#1 [])) = some
    [.expWrite 0x08#8, .expWrite 0x0C#8, .delay 1, .expWrite 0x08#8, .delay 1,
     .expWrite 0x18#8, .expWrite 0x1C#8, .delay 1, .expWrite 0x18#8, .delay 1] := by decide

/-- A stage placed while another's script is unfinished is entered all the same, by the model's choice (log 26). -/
theorem test_initS7_out_of_order :
    after (fun s => (s.stage, s.bl, s.seq.length)) (exec .initS7 (inStage 2#3 0#1 [.delay 5])) = some (7#3, 0#1, 10) := by
  decide

/-! ## Controller words and payloads -/

theorem test_irClear : after State.trace (exec .irClear base) =
    some (pulse 0x08#8 0x0C#8 ++ pulse 0x18#8 0x1C#8) := by decide
/-- L1-8. -/
theorem test_irHome : after State.trace (exec .irHome base) =
    some (pulse 0x08#8 0x0C#8 ++ pulse 0x28#8 0x2C#8) := by decide
theorem test_irEntryMode : after State.trace (exec .irEntryMode { base with bl := 0#1 }) =
    some (pulse 0x00#8 0x04#8 ++ pulse 0x60#8 0x64#8) := by decide
theorem test_irDisplayControl : after State.trace (exec (.irDisplayControl 3#2) { base with bl := 0#1 }) =
    some (pulse 0x00#8 0x04#8 ++ pulse 0xF0#8 0xF4#8) := by decide
/-- V47. -/
theorem test_irCursorRight : after State.trace (exec .irCursorRight base) =
    some (pulse 0x18#8 0x1C#8 ++ pulse 0x48#8 0x4C#8) := by decide
/-- L1-2. -/
theorem test_irFunctionSet : after State.trace (exec .irFunctionSet { base with bl := 0#1 }) =
    some (pulse 0x20#8 0x24#8 ++ pulse 0x80#8 0x84#8) := by decide
/-- V42: 8-bit mode selected, sent unchanged. -/
theorem test_irCommand : after State.trace (exec (.irCommand 0x30#8) base) =
    some (pulse 0x38#8 0x3C#8 ++ pulse 0x08#8 0x0C#8) := by decide
/-- L1-1. -/
theorem test_irData : after State.trace (exec (.irData 0x41#8) base) =
    some (pulse 0x49#8 0x4D#8 ++ pulse 0x19#8 0x1D#8) := by decide
/-- L1-3. -/
theorem test_irForceNibble : after State.trace (exec .irForceNibble { base with bl := 0#1 }) =
    some (pulse 0x20#8 0x24#8) := by decide
theorem test_payloads : after State.trace (exec (.expStrobe 4#4 1#1 1#1) base) = some [W 0x4D#8] ∧
    after State.trace (exec (.expSettleRelease 8#4 0#1 0#1) base) = some [W 0x80#8] ∧
    after State.trace (exec (.expBacklightOnly 1#1) base) = some [W 0x08#8] := by decide

/-! ## Steps -/

/-- V54: a presented request waits while the running operation goes on. -/
theorem test_step_waits :
    after (fun s => (s.trace, s.host)) (step { running [.expWrite 0x49#8] with host := [.request 0x141#11] }) =
      some ([W 0x49#8], [.request 0x141#11]) := by decide

/-- V21: FAIL at write 1. -/
theorem test_step_init_fails :
    after (fun s => (s.phase, s.failStage, s.stage, s.bl, s.trace))
        (step { inStage 1#3 0#1 [.expWrite 0x00#8] with transport := failsAfter 0 }) =
      some (.failed, 1#3, 0#3, 0#1, [Wfail 0x00#8, .r ⟨.initEnd, .busFail, 1#3⟩]) := by decide

/-- R204 and D21: the two orders of the responses at a failed initialization. -/
theorem test_step_init_fails_beside_request :
    let r := step { inStage 3#3 0#1 [.expWrite 0x80#8] with
      transport := failsAfter 0, host := [.idle, .request 0x141#11] }
    (Config.initResponseFirst 1 = true → after (fun t => (t.trace, t.host)) r =
      some ([Wfail 0x80#8, .r ⟨.initEnd, .busFail, 3#3⟩], [.request 0x141#11])) ∧
    (Config.initResponseFirst 1 = false → after (fun t => (t.trace, t.host)) r =
      some ([Wfail 0x80#8, .r ⟨.request, .notReady, 0#3⟩, .r ⟨.initEnd, .busFail, 3#3⟩], [])) := by
  refine ⟨fun h => ?_, fun h => ?_⟩ <;>
    (change some ((failInit (if Config.initResponseFirst 1 then _ else _)).trace,
      (failInit (if Config.initResponseFirst 1 then _ else _)).host) = _
     rw [h]
     rfl)

/-- V49: FAIL at the last write of Home; no shift is sent. -/
theorem test_step_request_fails :
    after (fun s => (s.phase, s.busy, s.seq, s.trace))
        (step { running [.expWrite 0x28#8, .delay 1, .expWrite 0x18#8] with transport := failsAfter 0 }) =
      some (.ready, false, [], [Wfail 0x28#8, .r ⟨.request, .busFail, 0#3⟩]) := by decide

/-- The end of stage 7 (41_init_fsm.md R149). -/
theorem test_step_init_ends : after (fun s => (s.phase, s.stage, s.trace)) (step (inStage 7#3 1#1 [])) =
    some (.ready, 0#3, [.r ⟨.initEnd, .ok, 0#3⟩]) := by decide

/-- V28: reset from READY. -/
theorem test_step_reset : after (fun s => (s.phase, s.stage, s.bl, s.seq)) (step { base with host := [.reset] }) =
    some (.init, 1#3, 0#1, [.delay 600, .expWrite 0x00#8]) := by decide

/-- 70_reset_and_hazards.md R230: refused during an operation. -/
theorem test_step_reset_refused :
    refusalOf (step { running [.expWrite 0#8] with host := [.reset] }) = some .resetNotQuiescent := by decide

/-- 70_reset_and_hazards.md R238. -/
theorem test_step_stuck : faultOf (step { running [.expWrite 0#8] with transport := ⟨[], .silent⟩ }) =
      some .transportSilent ∧
    faultOf (step { running [.delay 1] with delays := ⟨[], .never⟩ }) = some .delayNeverEnds := by decide

/-! ## Witnesses of the obligations' hypotheses -/

theorem witness_DecodeEncodeRoundTrip : WellFormed (.sendNibble 0xF0#8 1#8) ∧ WellFormed (.rsv 7#3 0xFF#8) ∧
    WellFormed (.delay 600) := by decide

theorem witness_MalformedWordsRejected : (0xFF#8 : Byte).getLsbD 1 = true ∧ 2 ^ 11 ≤ 2048 := by decide

theorem witness_StageWordsAreOwnWords : Params.Legal cfg ∧ Params.Legal { cfg with cmdDisplayControl := 0x0F#8 } := by
  decide

/-- A state of READY with a presented request, and one at the end of INIT with a reserved request. -/
theorem witness_StepRunsPresentedRequest :
    (let s : State := { base with host := [.request 0x141#11] }
     LegalStage s ∧ s.host = .request 0x141#11 :: [] ∧ s.busy = false ∧
      decode .req (0x141#11 : ReqWord).toNat = .ok (.wchr 0x41#8) ∧ ¬ (InitEndDue s ∧ reqReserved 0x141#11 = false)) ∧
    (let s : State := { inStage 7#3 1#1 [] with host := [.request 0x7FF#11] }
     LegalStage s ∧ s.host = .request 0x7FF#11 :: [] ∧ s.busy = false ∧
      decode .req (0x7FF#11 : ReqWord).toNat = .ok (.rsv 7#3 0xFF#8) ∧
      ¬ (InitEndDue s ∧ reqReserved 0x7FF#11 = false)) := by decide

/-- The three ways the host lets the sequencer go on. -/
theorem witness_HostLets :
    HostLets base [] ∧ HostLets { base with host := [.idle, .reset] } [.reset] ∧
    HostLets { running [] with host := [.request 0x7FF#11] } [.request 0x7FF#11] :=
  ⟨.inl ⟨rfl, rfl⟩, .inr (.inl rfl), .inr (.inr ⟨rfl, rfl, _, _, rfl⟩)⟩

theorem witness_StepRunsScriptHead :
    LegalStage (running [.expWrite 0x49#8, .delay 1]) ∧ HostLets (running [.expWrite 0x49#8, .delay 1]) [] ∧
    (running [.expWrite 0x49#8, .delay 1]).seq = .expWrite 0x49#8 :: [.delay 1] :=
  ⟨by decide, .inl ⟨rfl, rfl⟩, rfl⟩

/-- A request word and a payload word, placed in the state right after reset. -/
theorem witness_StepRunsPlacedWord :
    LegalStage State.reset ∧ ¬ InitEndDue State.reset ∧
    decodeTableWord 16 0x141 = some (.wchr 0x41#8) ∧ (encode (.wchr 0x41#8)).1 = .req ∧
    decodeTableWord 8 0xFD = some (.expStrobe 15#4 1#1 1#1) ∧ (encode (.expStrobe 15#4 1#1 1#1)).1 ≠ .req := by
  decide

theorem witness_CommandAndCharacterAccepted : base.phase = .ready ∧ base.busy = false := by decide
theorem witness_CursorRequestsAccepted : base.phase = .ready ∧ base.busy = false := by decide
theorem witness_ReservedRequestAnswered : (0x400#11).getLsbD 10 = true ∧ (0x7FF#11).getLsbD 10 = true ∧
    failed.busy = false ∧ (inStage 1#3 0#1 [.delay 600]).busy = false := by decide
theorem witness_RequestsOutsideReadyAnswered : failed.phase ≠ .ready ∧ failed.busy = false ∧
    (inStage 7#3 1#1 []).phase ≠ .ready ∧ (inStage 7#3 1#1 []).busy = false := by decide

/-- A running request that meets the invariant, in front of a write. -/
theorem witness_invariant : BlockInv (running [.expWrite 0x49#8, .delay 1]) where
  legalStage := by decide
  busyReady := by decide
  idleEmpty := by decide
  failStage := by decide
  backlight := by decide
  items := by simp [running, base, SeqItemOk]
  enable := by simp [running, EnOwned]

theorem witness_RequestWaitsWhileBusy :
    ∃ t, BlockInv { running [.expWrite 0x49#8, .delay 1] with host := [.request 0x001#11] } ∧
      (running [.expWrite 0x49#8, .delay 1]).busy = true ∧
      step { running [.expWrite 0x49#8, .delay 1] with host := [.request 0x001#11] } = .next t :=
  ⟨_, ⟨witness_invariant.legalStage, witness_invariant.busyReady, witness_invariant.idleEmpty,
    witness_invariant.failStage, witness_invariant.backlight, witness_invariant.items, witness_invariant.enable⟩,
    rfl, rfl⟩

theorem witness_ExpanderWriteAcknowledged : base.transport.head = .ok := by decide
theorem witness_DelayElapses : (1 : Nat) ≠ 0 ∧ base.delays.head = .elapsed := by decide
theorem witness_BacklightWriteRuns : base.transport.head = .ok := by decide

/-- `base`'s ports serve any script. -/
theorem base_serves (sc : Script) : PortsServe sc base := ⟨Feed.gives_always _ _, Feed.gives_always _ _⟩

theorem witness_NibbleTransferRuns : PortsServe (nibblePulse base.cfg 15#4 base.bl 1#1) base := base_serves _
theorem witness_ByteTransferRuns : PortsServe (wordPulses base.cfg 0xFF#8 base.bl 1#1) base := base_serves _
theorem witness_ControllerWordsCarried : PortsServe (wordPulses base.cfg 0x01#8 base.bl 0#1) base := base_serves _
theorem witness_ForceNibbleSent : PortsServe (nibblePulse base.cfg base.cfg.forceNibble base.bl 0#1) base :=
  base_serves _
theorem witness_PayloadsIssued : base.transport.head = .ok := by decide

theorem witness_TransfersCountedAndOrdered :
    (∃ t, run (nibScript base.cfg base.bl 0xFF#8 1#8) base = .ok t) ∧
    ∃ t, run (byteScript base.cfg base.bl 0x0F#8 0#8) base = .ok t := ⟨⟨_, rfl⟩, ⟨_, rfl⟩⟩

/-- Each of the seven primitives, the second of them with a write that fails. -/
theorem witness_PrimitivesKeepBacklight :
    (∃ t, exec (.sendNibble 0xFF#8 1#8) base = .next t) ∧
    (∃ t, exec (.sendByte 0x41#8 1#8) { base with transport := failsAfter 1 } = .next t) ∧
    (∃ t, exec (.sendCommand 0x00#8) base = .next t) ∧ (∃ t, exec (.sendCharacter 0xFF#8) base = .next t) ∧
    (∃ t, exec .blWrite base = .next t) ∧ (∃ t, exec (.expWrite 0xFF#8) base = .next t) ∧
    ∃ t, exec (.delay 0) base = .next t :=
  ⟨⟨_, rfl⟩, ⟨_, rfl⟩, ⟨_, rfl⟩, ⟨_, rfl⟩, ⟨_, rfl⟩, ⟨_, rfl⟩, ⟨_, rfl⟩⟩

/-- The first and the last write of a byte transfer. -/
theorem witness_FailedByteTransferStops :
    (let s : State := { base with transport := failsAfter 0 }
     0 < 6 ∧ s.transport.Gives .ok 0 ∧ (s.transport.drop 0).head = .fail ∧
      s.delays.Gives .elapsed (scriptWaits (wordPulses s.cfg 0xA5#8 s.bl 0#1))) ∧
    (let s : State := { base with transport := failsAfter 5 }
     5 < 6 ∧ s.transport.Gives .ok 5 ∧ (s.transport.drop 5).head = .fail ∧
      s.delays.Gives .elapsed (scriptWaits (wordPulses s.cfg 0xA5#8 s.bl 0#1))) :=
  ⟨⟨by decide, trivial, rfl, Feed.gives_always _ _⟩,
    ⟨by decide, ⟨rfl, rfl, rfl, rfl, rfl, trivial⟩, rfl, Feed.gives_always _ _⟩⟩

theorem witness_StagesEntered : (inStage 1#3 0#1 []).phase = .init := by decide
theorem witness_StagesOutsideInitFault : base.phase ≠ .init ∧ failed.phase ≠ .init := by decide

/-- The first stage, the stage before the backlight is switched on, and the last stage with one after it. -/
theorem witness_StageAdvances : ∀ n ∈ [1#3, 5#3, 6#3], (inStage n 0#1 []).phase = .init ∧
    (inStage n 0#1 []).stage ≠ 0#3 ∧ (inStage n 0#1 []).stage ≠ 7#3 ∧ (inStage n 0#1 []).seq = [] ∧
    (inStage n 0#1 []).host = [] := by decide

theorem witness_InitializationCompletes :
    (InitEndDue (inStage 7#3 1#1 []) ∧ HostLets (inStage 7#3 1#1 []) []) ∧
    (base.phase = .ready ∧ base.stage = 0#3 ∧ base.busy = false ∧
      ({ base with host := [.request 0x3FF#11] } : State).host = .request 0x3FF#11 :: [] ∧
      ∃ sc, requestScript base.cfg base.bl 0x3FF#11 = some sc) ∧
    ∃ t, base.phase = .ready ∧ step base = .next t :=
  ⟨⟨by decide, .inl ⟨rfl, rfl⟩⟩, ⟨rfl, rfl, rfl, rfl, _, rfl⟩, ⟨_, rfl, rfl⟩⟩

theorem witness_RequestCompletes : (running []).phase = .ready ∧ (running []).stage = 0#3 ∧ (running []).busy = true ∧
    (running []).seq = [] ∧ HostLets (running []) [] := ⟨rfl, rfl, rfl, rfl, .inl ⟨rfl, rfl⟩⟩

theorem witness_SimultaneousResponsesInEitherOrder :
    (let s : State := { inStage 7#3 1#1 [] with host := [.request 0x141#11] }
     InitEndDue s ∧ s.busy = false ∧ s.host = .request 0x141#11 :: [] ∧ reqReserved 0x141#11 = false) := by decide

/-- In INIT, in FAILED, and a reserved request as the init-completion response falls due. -/
theorem witness_RequestsLeaveInitializationAlone :
    (let s : State := { inStage 3#3 0#1 [.delay 150] with host := [.request 0x001#11] }
     LegalStage s ∧ s.phase ≠ .ready ∧ s.busy = false ∧ s.host = .request 0x001#11 :: [] ∧
      ¬ (InitEndDue s ∧ reqReserved 0x001#11 = false)) ∧
    (let s : State := { failed with host := [.request 0x001#11] }
     LegalStage s ∧ s.phase ≠ .ready ∧ s.busy = false ∧ s.host = .request 0x001#11 :: [] ∧
      ¬ (InitEndDue s ∧ reqReserved 0x001#11 = false)) ∧
    (let s : State := { inStage 7#3 1#1 [] with host := [.request 0x400#11] }
     LegalStage s ∧ s.phase ≠ .ready ∧ s.busy = false ∧ s.host = .request 0x400#11 :: [] ∧
      ¬ (InitEndDue s ∧ reqReserved 0x400#11 = false)) := by decide

/-- Stage 1, stage 7, and a presented request, a reserved one too. -/
theorem witness_FailedWriteEndsInitialization :
    (let s : State := { inStage 1#3 0#1 [.expWrite 0#8] with transport := failsAfter 0 }
     s.phase = .init ∧ s.stage ≠ 0#3 ∧ s.host = [] ∧ s.seq = .expWrite 0#8 :: [] ∧ s.transport.head = .fail) ∧
    (let s : State := { inStage 7#3 1#1 [.expWrite 0x18#8, .delay 1] with transport := failsAfter 0 }
     s.phase = .init ∧ s.stage ≠ 0#3 ∧ s.host = [] ∧ s.seq = .expWrite 0x18#8 :: [.delay 1] ∧
      s.transport.head = .fail) ∧
    ∀ w ∈ [0x141#11, 0x7FF#11],
      (let s : State := { inStage 3#3 0#1 [.expWrite 0x80#8] with transport := failsAfter 0, host := [.idle, .request w] }
       s.phase = .init ∧ s.stage ≠ 0#3 ∧ s.host = .idle :: [.request w] ∧ s.seq = .expWrite 0x80#8 :: [] ∧
        s.transport.head = .fail ∧ s.busy = false) := by decide

/-- With the next request already presented, and a word for its other clause. -/
theorem witness_FailedWriteEndsRequest :
    (let s : State := { running [.expWrite 0x28#8] with transport := failsAfter 0, host := [.request 0x001#11] }
     s.phase = .ready ∧ s.stage = 0#3 ∧ s.busy = true ∧ HostLets s [.request 0x001#11] ∧
      s.seq = .expWrite 0x28#8 :: [] ∧ s.transport.head = .fail ∧
      (∃ sc, requestScript s.cfg s.bl 0x001#11 = some sc) ∧ reqReserved 0x400#11 = true) :=
  ⟨rfl, rfl, rfl, .inr (.inr ⟨rfl, rfl, _, _, rfl⟩), rfl, rfl, ⟨_, rfl⟩, rfl⟩

theorem witness_SilentPortsStick :
    (let s : State := { running [.expWrite 0#8] with transport := ⟨[], .silent⟩ }
     LegalStage s ∧ s.host = [] ∧ s.seq = .expWrite 0#8 :: [] ∧ s.transport.head = .silent) ∧
    (let s : State := { inStage 1#3 0#1 [.delay 1] with delays := ⟨[], .never⟩ }
     LegalStage s ∧ s.host = [] ∧ s.seq = .delay 1 :: [] ∧ 1 ≠ 0 ∧ s.delays.head = .never) := by decide

theorem witness_IllegalStageFaults : ¬ LegalStage (inStage 0#3 0#1 []) ∧ ¬ LegalStage { base with stage := 7#3 } := by
  decide

/-- Quiescent in READY and in FAILED, and not quiescent in INIT and during a request. -/
theorem witness_ResetOnlyWhenQuiescent :
    (LegalStage { base with host := [.reset] } ∧ Quiescent { base with host := [.reset] }) ∧
    (LegalStage { failed with host := [.reset] } ∧ Quiescent { failed with host := [.reset] }) ∧
    (LegalStage (inStage 7#3 1#1 []) ∧ ¬ Quiescent (inStage 7#3 1#1 [])) ∧
    (LegalStage (running []) ∧ ¬ Quiescent (running [])) := by decide

theorem witness_QuiescentBlockWaits : LegalStage base ∧ Quiescent base ∧ base.host = [] ∧
    LegalStage failed ∧ Quiescent failed ∧ failed.host = [] := by decide

/-- A step of each kind: no change, the end of stage 7, a failure in INIT, and reset. -/
theorem witness_PhaseTransitions :
    (∃ t, step base = .next t ∧ t.phase = .ready) ∧ (∃ t, step (inStage 7#3 1#1 []) = .next t ∧ t.phase = .ready) ∧
    (∃ t, step { inStage 3#3 0#1 [.expWrite 0x80#8] with transport := failsAfter 0 } = .next t ∧ t.phase = .failed) ∧
    ∃ t, step { base with host := [.reset] } = .next t ∧ t.phase = .init :=
  ⟨⟨_, rfl, rfl⟩, ⟨_, rfl, rfl⟩, ⟨_, rfl, rfl⟩, ⟨_, rfl, rfl⟩⟩

/-- Reset, and the way into stage 6. -/
theorem witness_BacklightWriters :
    (∃ t, step { base with host := [.reset] } = .next t ∧ t.bl = 0#1) ∧
    ∃ t, step (inStage 5#3 0#1 []) = .next t ∧ t.bl = 1#1 := ⟨⟨_, rfl, rfl⟩, ⟨_, rfl, rfl⟩⟩

theorem witness_FailStageWriters :
    (∃ t, step { failed with host := [.reset] } = .next t ∧ t.failStage = 0#3) ∧
    ∃ t, step { inStage 3#3 0#1 [.expWrite 0x80#8] with transport := failsAfter 0 } = .next t ∧ t.failStage = 3#3 :=
  ⟨⟨_, rfl, rfl⟩, ⟨_, rfl, rfl⟩⟩

theorem witness_ConfigurationFixed : ∃ t, step { base with host := [.reset] } = .next t := ⟨_, rfl⟩
theorem witness_TraceOnlyGrows : ∃ t, step (running [.expWrite 0x49#8]) = .next t ∧ t.trace = [W 0x49#8] :=
  ⟨_, rfl, rfl⟩
theorem witness_StepKeepsInvariant : ∃ t, BlockInv (running [.expWrite 0x49#8, .delay 1]) ∧
    step (running [.expWrite 0x49#8, .delay 1]) = .next t := ⟨_, witness_invariant, rfl⟩
theorem witness_WritesStayClean : ∃ t, BlockInv (running [.expWrite 0x49#8, .delay 1]) ∧
    TraceClean (running [.expWrite 0x49#8, .delay 1]) ∧ step (running [.expWrite 0x49#8, .delay 1]) = .next t :=
  ⟨_, witness_invariant, by simp [TraceClean, running, base], rfl⟩

/-- A script that ends, one that fails and one that sticks, with an item left behind it. -/
theorem witness_SequencerRunsScript :
    (let s : State := running (Script.instrs [.w 0x49#8, .d 1] ++ [.delay 5])
     LegalStage s ∧ s.host = [] ∧ ∃ u, run [.w 0x49#8, .d 1] s = .ok u) ∧
    (let s : State := { running (Script.instrs [.w 0x49#8, .d 1] ++ [.delay 5]) with transport := failsAfter 0 }
     LegalStage s ∧ s.host = [] ∧ ∃ k u, run [.w 0x49#8, .d 1] s = .busFail k u) ∧
    (let s : State := { running (Script.instrs [.w 0x49#8, .d 1] ++ [.delay 5]) with delays := ⟨[], .never⟩ }
     LegalStage s ∧ s.host = [] ∧ ∃ f, run [.w 0x49#8, .d 1] s = .stuck f) :=
  ⟨⟨by decide, rfl, _, rfl⟩, ⟨by decide, rfl, _, _, rfl⟩, ⟨by decide, rfl, _, rfl⟩⟩

/-- The state right after reset, and one with every argument moved off its default. -/
theorem witness_InitializationRuns :
    (let s := State.reset
     s.phase = .init ∧ s.stage = 1#3 ∧ s.bl = 0#1 ∧ s.host = [] ∧
      s.seq = Script.instrs (stageScript s.cfg 0#1 1#3) ∧ PortsServe (initScript s.cfg) s) ∧
    (let p : Params := ⟨0x3F#7, 0x3#4, 0x0F#8, 1, 2, 3, 4⟩
     let s : State := { inStage 1#3 0#1 (Script.instrs (stageScript p 0#1 1#3)) with cfg := p }
     s.phase = .init ∧ s.stage = 1#3 ∧ s.bl = 0#1 ∧ s.host = [] ∧
      s.seq = Script.instrs (stageScript s.cfg 0#1 1#3) ∧ PortsServe (initScript s.cfg) s) :=
  ⟨⟨rfl, rfl, rfl, rfl, by decide, Feed.gives_always _ _, Feed.gives_always _ _⟩,
    ⟨rfl, rfl, rfl, rfl, rfl, Feed.gives_always _ _, Feed.gives_always _ _⟩⟩

/-- A transport that answers OK `n` times and then FAIL does so. -/
theorem failsAfter_spec (n : Nat) : (failsAfter n).Gives .ok n ∧ ((failsAfter n).drop n).head = .fail := by
  induction n with
  | zero => exact ⟨trivial, rfl⟩
  | succ n ih => exact ⟨⟨rfl, ih.1⟩, ih.2⟩

/-- Every write number, the first and the last of each stage among them. -/
theorem witness_FailedInitializationEmitsPrefix (k : Nat) (h : k < 35) :
    ∃ s : State, s.phase = .init ∧ s.stage = 1#3 ∧ s.bl = 0#1 ∧ s.host = [] ∧
      s.seq = Script.instrs (stageScript s.cfg 0#1 1#3) ∧ k < 35 ∧ s.transport.Gives .ok k ∧
      (s.transport.drop k).head = .fail ∧ s.delays.Gives .elapsed (scriptWaits (initScript s.cfg)) := by
  refine ⟨{ inStage 1#3 0#1 (Script.instrs (stageScript cfg 0#1 1#3)) with transport := failsAfter k },
    rfl, rfl, rfl, rfl, rfl, h, (failsAfter_spec k).1, (failsAfter_spec k).2, ?_⟩
  dsimp only
  exact Feed.gives_always _ _

theorem witness_RequestsRunToTheirResponse :
    ∀ w ∈ [0x000#11, 0x1FF#11, 0x200#11, 0x3FF#11],
      (let s : State := { base with host := [.request w] }
       s.phase = .ready ∧ s.stage = 0#3 ∧ s.busy = false ∧ s.host = [.request w] ∧
        ∃ sc, requestScript s.cfg s.bl w = some sc ∧ PortsServe sc s) := by
  intro w hw
  have h : ∀ w ∈ [0x000#11, 0x1FF#11, 0x200#11, 0x3FF#11], (requestScript base.cfg base.bl w).isSome = true := by
    decide +kernel
  obtain ⟨sc, hsc⟩ := Option.isSome_iff_exists.1 (h w hw)
  exact ⟨rfl, rfl, rfl, rfl, sc, hsc, Feed.gives_always _ _, Feed.gives_always _ _⟩

/-- Every write number of LINE2, the first and the last among them. -/
theorem witness_FailedRequestEmitsPrefix (k : Nat) (h : k < 246) :
    ∃ (s : State) (sc : Script), s.phase = .ready ∧ s.stage = 0#3 ∧ s.busy = false ∧ s.host = [.request 0x300#11] ∧
      requestScript s.cfg s.bl 0x300#11 = some sc ∧ k < (scriptWrites sc).length ∧ s.transport.Gives .ok k ∧
      (s.transport.drop k).head = .fail ∧ s.delays.Gives .elapsed (scriptWaits sc) := by
  have hsc : ∃ sc, requestScript base.cfg base.bl 0x300#11 = some sc ∧ (scriptWrites sc).length = 246 :=
    ⟨_, rfl, by decide +kernel⟩
  obtain ⟨sc, hsc, hl⟩ := hsc
  exact ⟨{ base with host := [.request 0x300#11], transport := failsAfter k }, sc, rfl, rfl, rfl, rfl, hsc, hl ▸ h,
    (failsAfter_spec k).1, (failsAfter_spec k).2, Feed.gives_always _ _⟩

/-- A request of each count, and requests that load nothing: reserved, in FAILED and in INIT. -/
theorem witness_RequestCounts :
    (base.phase = .ready ∧ base.busy = false) ∧
    (reqReserved 0x3FF#11 = false ∧ reqOp 0x3FF#11 = 3#3) ∧ (reqReserved 0x2FF#11 = false ∧ reqOp 0x2FF#11 = 2#3) ∧
    (reqReserved 0x000#11 = false ∧ reqOp 0x000#11 ≠ 3#3) ∧ reqReserved 0x400#11 = true ∧
    (failed.busy = false ∧ failed.phase ≠ .ready) ∧
    ((inStage 7#3 1#1 []).busy = false ∧ (inStage 7#3 1#1 []).phase ≠ .ready) := by decide

/-- A state with `T_SETUP` = 2 and `T_HOME` = 3, and the three delays its LINE1 loads. -/
theorem witness_NoAutomaticDelays :
    (let s : State := { base with cfg := { cfg with tSetup := 2, tHome := 3 } }
     s.phase = .ready ∧ s.busy = false ∧ reqReserved 0x200#11 = false ∧
      after (fun t => seqDelays t.seq) (exec (decodeReq 0x200#11) s) = some [2, 1, 1, 2, 1, 1, 3]) := by decide

theorem witness_InitializationTable :
    (let s : State := inStage 1#3 0#1 [.delay 600, .expWrite 0x00#8]
     s.phase = .init ∧ s.stage = 1#3 ∧ s.bl = 0#1 ∧ s.host = [] ∧ s.seq = [.delay 600, .expWrite 0x00#8] ∧
      s.cfg = ⟨0x27#7, 0x2#4, 0x0C#8, 0, 0, 0, 0⟩ ∧ s.transport.Gives .ok 35 ∧ s.delays.Gives .elapsed 30) :=
  ⟨rfl, rfl, rfl, rfl, rfl, rfl, Feed.gives_always _ _, Feed.gives_always _ _⟩

/-- LINE2 and LINE1, with any data, one behind the other and LINE1 alone. -/
theorem witness_LastWordIsReturnHome :
    ∀ host ∈ [[HostMove.request 0x3FF#11, .request 0x200#11], [.request 0x200#11]],
      (let s : State := { base with host := host }
       s.phase = .ready ∧ s.stage = 0#3 ∧ s.busy = false ∧ reqOp 0x3FF#11 = 3#3 ∧ reqOp 0x200#11 = 2#3 ∧
        s.transport.Gives .ok 252 ∧ s.delays.Gives .elapsed 254 ∧ s.host = host) :=
  fun _ _ => ⟨rfl, rfl, rfl, rfl, rfl, Feed.gives_always _ _, Feed.gives_always _ _, rfl⟩

/-- The first and the last write of a payload, a nibble transfer and a byte transfer, in READY, during a request, in INIT,
and in INIT with a presented request. -/
theorem witness_FailedTransfersStop :
    ∀ s ∈ [base, running [.delay 1], inStage 3#3 0#1 [.delay 1],
        { inStage 3#3 0#1 [.delay 1] with host := [.request 0x141#11] }],
      ∀ sn ∈ [([ScriptAction.w 0x08#8], 0), (nibblePulse cfg 15#4 s.bl 1#1, 0), (nibblePulse cfg 15#4 s.bl 1#1, 2),
        (wordPulses cfg 0xA5#8 s.bl 0#1, 0), (wordPulses cfg 0xA5#8 s.bl 0#1, 5)],
        sn.2 < (scriptWrites sn.1).length ∧ (failsAfter sn.2).Gives .ok sn.2 ∧
          ((failsAfter sn.2).drop sn.2).head = .fail ∧ s.delays.Gives .elapsed (scriptWaits sn.1) := by
  intro s hs sn hsn
  refine ⟨?_, (failsAfter_spec _).1, (failsAfter_spec _).2, ?_⟩
  · have h : ∀ b : Bit, ∀ sn ∈ [([ScriptAction.w 0x08#8], 0), (nibblePulse cfg 15#4 b 1#1, 0),
        (nibblePulse cfg 15#4 b 1#1, 2), (wordPulses cfg 0xA5#8 b 0#1, 0), (wordPulses cfg 0xA5#8 b 0#1, 5)],
        sn.2 < (scriptWrites sn.1).length := by decide
    exact h _ sn hsn
  · simp only [List.mem_cons, List.not_mem_nil, or_false] at hs
    rcases hs with rfl | rfl | rfl | rfl <;> exact Feed.gives_always _ _

end Sys2Proof.Tests
end

/-! PROOFS. Family 00_scope.md: the build's arguments and the constant controller words (R9). -/
namespace Sys2Proof.Machine

/-! ## The display-control words -/

/-- A legal `CMD_DISPLAY_CONTROL` is the IR_DISPLAY_CONTROL word of its two low bits (41_init_fsm.md R144). -/
theorem displayControlWord_of_legal {p : Params} (h : p.Legal) :
    displayControlWord (p.cmdDisplayControl.extractLsb' 0 2) = p.cmdDisplayControl := by
  have hb : ∀ b : Byte, b &&& 0xFC#8 = 0x0C#8 → displayControlWord (b.extractLsb' 0 2) = b := by decide
  exact hb _ h

/-- At the place of the block's own words, an IR_DISPLAY_CONTROL word is read back with its operand
(30_encoding.md R87). -/
theorem decode_displayControlWord (cb : BitVec 2) :
    decode .irOwn (displayControlWord cb).toNat = .ok (.irDisplayControl cb) := by
  revert cb
  decide

/-- Settles O5: the fixed words are read off the decoder, and a legal display-control word is the word of its operand. -/
theorem stageWordsAreOwnWords : Obligations.StageWordsAreOwnWords := by
  refine ⟨rfl, rfl, rfl, rfl, rfl, rfl, rfl, rfl, rfl, rfl, fun p hp => ?_⟩
  have hword := decode_displayControlWord (p.cmdDisplayControl.extractLsb' 0 2)
  rwa [displayControlWord_of_legal hp] at hword

/-! ## No operation writes the build's arguments -/

@[simp] theorem busFailure_cfg (s : State) : (busFailure s).cfg = s.cfg := by
  rcases busFailure_cases s with ⟨-, h⟩ | ⟨-, -, h⟩ | ⟨-, -, h⟩
  · rw [h, initFailure_cfg]
  · rw [h, runtimeFailure_cfg]
  · rw [h]

@[simp] theorem initEndWithRequest_cfg (s : State) : (initEndWithRequest s).cfg = s.cfg := by
  unfold initEndWithRequest
  split <;> rfl

theorem runScript_next_cfg {sc : Script} {s t : State} (h : runScript sc s = .next t) : t.cfg = s.cfg := by
  rcases runScript_next h with rfl | ⟨before, v, -, -, rfl⟩
  · exact (sameBlock_afterScript sc s).cfg
  · rw [busFailure_cfg, (sameBlock_afterFailedWrite before v s).cfg]

theorem acceptRequest_next_cfg {w : ReqWord} {sc : Script} {s t : State} (h : acceptRequest w sc s = .next t) :
    t.cfg = s.cfg := by
  rcases acceptRequest_cases w sc s with ⟨-, hw⟩ | ⟨-, -, hw⟩ | ⟨-, -, hw⟩ <;>
    (rw [hw] at h; cases h; rfl)

theorem acceptReserved_next_cfg {w : ReqWord} {s t : State} (h : acceptReserved w s = .next t) : t.cfg = s.cfg := by
  rcases acceptReserved_cases w s with ⟨-, hw⟩ | ⟨-, hw⟩ <;> (rw [hw] at h; cases h; rfl)

/-- No instruction writes the build's arguments. -/
theorem exec_next_cfg {i : Instr} {s t : State} (h : exec i s = .next t) : t.cfg = s.cfg := by
  rcases exec_cases i s with ⟨sc, he⟩ | ⟨n, hn⟩ | ⟨w, sc, -, he⟩ | ⟨w, he⟩
  · exact runScript_next_cfg (he ▸ h)
  · rw [exec_stage hn] at h
    rw [(enterStage_next h).2]
  · exact acceptRequest_next_cfg (he ▸ h)
  · exact acceptReserved_next_cfg (he ▸ h)

theorem sequencerStep_next_cfg {s t : State} (h : sequencerStep s = .next t) : t.cfg = s.cfg := by
  rcases sequencerStep_next h with ⟨i, _, -, he⟩ | ⟨-, rfl⟩ | ⟨-, -, -, i, -, he⟩ | ⟨-, -, -, rfl⟩ | ⟨-, -, -, rfl⟩
  · exact (exec_next_cfg he :)
  · exact completeInit_cfg s
  · exact (exec_next_cfg he :)
  · exact completeRequest_cfg s
  · rfl

/-- Settles O45, by the ways a step can go: a reset, the end of INIT beside a request, a request, or the sequencer. -/
theorem configurationFixed : Obligations.ConfigurationFixed := by
  intro s t h
  obtain ⟨-, ⟨_, -, -, rfl⟩ | ⟨_, _, -, -, -, -, rfl⟩ | ⟨w, _, -, -, -, he⟩ | ⟨_, -, -, -, he⟩⟩ := step_next h
  · exact applyReset_cfg _
  · exact initEndWithRequest_cfg _
  · exact (exec_next_cfg he :)
  · exact (sequencerStep_next_cfg he :)

end Sys2Proof.Machine

/-! PROOFS. Family 10_state.md: the status port, the reset values, who writes `phase`, `bl` and `fail_stage`, and the
invariant that every step keeps. -/
namespace Sys2Proof.Machine

/-! ## The status port -/

/-- Settles O7: `phaseCode` tells the three phases apart, and the other fields are read as they are. -/
theorem statusPortReads : Obligations.StatusPortReads := by
  intro s
  have hcode : ∀ p : Phase, (phaseCode p = 0b00#2 ↔ p = .init) ∧ (phaseCode p = 0b01#2 ↔ p = .ready) ∧
      (phaseCode p = 0b10#2 ↔ p = .failed) := by
    intro p
    cases p <;> decide
  obtain ⟨hinit, hready, hfailed⟩ := hcode s.phase
  exact ⟨hinit, hready, hfailed, rfl, rfl, rfl⟩

/-! ## One step of the sequencer, and a stage that does not fit -/

theorem sequencerStep_cons {s : State} {i : Instr} {rest : List Instr} (h : s.seq = i :: rest) :
    sequencerStep s = exec i { s with seq := rest } := by
  simp only [sequencerStep, h]

/-- Settles O9: the host lets the sequencer take the step, and the sequencer takes the head of `seq`. -/
theorem stepRunsScriptHead : Obligations.StepRunsScriptHead := by
  intro s later i rest hlegal hhost hseq
  calc step s = sequencerStep { s with host := later } := hostLets_step hlegal hhost
    _ = exec i { s with host := later, seq := rest } := sequencerStep_cons hseq

/-- The registers right after stage `n` is entered (41_init_fsm.md R146, R148). -/
def stageEntered (n : StageNum) (s : State) : State :=
  { s with
    stage := n
    bl := if n = 6#3 then 1#1 else s.bl
    seq := Script.instrs (stageScript s.cfg (if n = 6#3 then 1#1 else s.bl) n) }

theorem exec_stage_next {n : StageNum} {i : Instr} {s t : State} (hn : decodeStage n = some i)
    (h : exec i s = .next t) : s.phase = .init ∧ t = stageEntered n s := by
  rw [exec_stage hn] at h
  exact enterStage_next h

theorem exec_stage_outsideInit {n : StageNum} {i : Instr} {s : State} (hn : decodeStage n = some i)
    (hp : s.phase ≠ .init) : exec i s = .fault .illegalStage := by
  rw [exec_stage hn, enterStage, if_neg hp]

/-- Settles O29: each of the seven instructions enters a stage, and a stage is entered in INIT only. -/
theorem stagesOutsideInitFault : Obligations.StagesOutsideInitFault := by
  intro s hp
  exact ⟨exec_stage_outsideInit (n := 1#3) rfl hp, exec_stage_outsideInit (n := 2#3) rfl hp,
    exec_stage_outsideInit (n := 3#3) rfl hp, exec_stage_outsideInit (n := 4#3) rfl hp,
    exec_stage_outsideInit (n := 5#3) rfl hp, exec_stage_outsideInit (n := 6#3) rfl hp,
    exec_stage_outsideInit (n := 7#3) rfl hp⟩

/-- Settles O38: a step looks at the stage before anything else. -/
theorem illegalStageFaults : Obligations.IllegalStageFaults := by
  intro s h
  rw [step, machineStep, if_neg h]

/-- Settles O39: each value is a field of the reset state. -/
theorem resetValues : Obligations.ResetValues :=
  ⟨rfl, rfl, rfl, rfl, rfl, rfl, rfl⟩

/-! ## The block's registers

The invariant and the rules on `phase`, `bl` and `fail_stage` speak of the block's own registers only. So what a step does
is said once for these registers, and the ports, the pins and the trace are left aside. -/

/-- The block's own registers (10_state.md R29). -/
structure Registers where
  phase : Phase
  stage : StageNum
  bl : Bit
  failStage : StageNum
  busy : Bool
  seq : List Instr

/-- What the registers hold in a state. -/
def State.registers (s : State) : Registers := ⟨s.phase, s.stage, s.bl, s.failStage, s.busy, s.seq⟩

theorem SameBlock.registers {s t : State} (h : SameBlock s t) : t.registers = s.registers := by
  simp only [State.registers, h.phase, h.stage, h.bl, h.failStage, h.busy, h.seq]

/-- A failure in INIT, whatever the host presents beside it, leaves the registers of `failInit`. -/
theorem busFailure_registers_init {s : State} (h : s.phase = .init) :
    (busFailure s).registers = (failInit s).registers := by
  rw [busFailure, if_pos h]
  simp [State.registers]

/-- Outside INIT a failure leaves the registers of `runtimeFailure`: with no operation running, `busy` is 0 already. -/
theorem busFailure_registers_outsideInit {s : State} (h : s.phase ≠ .init) :
    (busFailure s).registers = (runtimeFailure s).registers := by
  rw [busFailure, if_neg h]
  cases hb : s.busy
  · simp [State.registers]
  · simp

/-- What an instruction does to the registers: nothing, a failure of one of its writes, a stage entered, or a request
started. -/
inductive ExecMove (i : Instr) (s t : State) : Prop
  | keeps (h : t.registers = s.registers)
  | failsInit (hp : s.phase = .init) (h : t.registers = (failInit s).registers)
  | failsOutsideInit (hp : s.phase ≠ .init) (h : t.registers = (runtimeFailure s).registers)
  | entersStage (n : StageNum) (hn : decodeStage n = some i) (hp : s.phase = .init)
      (h : t.registers = (stageEntered n s).registers)
  | startsRequest (w : ReqWord) (sc : Script) (hsc : requestScript s.cfg s.bl w = some sc) (hp : s.phase = .ready)
      (h : t.registers = (startRequest sc s).registers)

theorem execMove_of_busFailure {i : Instr} {s u : State} (h : SameBlock s u) : ExecMove i s (busFailure u) := by
  by_cases hp : s.phase = .init
  · refine .failsInit hp ((busFailure_registers_init (h.phase.trans hp)).trans ?_)
    simp [State.registers, h.stage, h.bl, h.busy]
  · refine .failsOutsideInit hp ((busFailure_registers_outsideInit fun hu => hp (h.phase.symm.trans hu)).trans ?_)
    simp [State.registers, h.phase, h.stage, h.bl, h.failStage]

theorem exec_next_move {i : Instr} {s t : State} (h : exec i s = .next t) : ExecMove i s t := by
  rcases exec_cases i s with ⟨sc, he⟩ | ⟨n, hn⟩ | ⟨w, sc, hsc, he⟩ | ⟨w, he⟩
  · rcases runScript_next (he ▸ h) with rfl | ⟨before, v, -, -, rfl⟩
    · exact .keeps (sameBlock_afterScript sc s).registers
    · exact execMove_of_busFailure (sameBlock_afterFailedWrite before v s)
  · obtain ⟨hp, rfl⟩ := exec_stage_next hn h
    exact .entersStage n hn hp rfl
  · rw [he] at h
    rcases acceptRequest_cases w sc s with ⟨-, hw⟩ | ⟨-, -, hw⟩ | ⟨-, hp, hw⟩ <;> rw [hw] at h <;> cases h
    · exact .keeps rfl
    · exact .keeps rfl
    · exact .startsRequest w sc hsc hp rfl
  · rw [he] at h
    rcases acceptReserved_cases w s with ⟨-, hw⟩ | ⟨-, hw⟩ <;> rw [hw] at h <;> cases h <;> exact .keeps rfl

/-- What a step does to the registers (10_state.md R21 to R27). -/
inductive StepMove (s t : State) : Prop
  /-- Nothing: the block waits, or answers a request and goes on. -/
  | keeps (h : t.registers = s.registers)
  /-- The first action of `seq` is done. -/
  | acts (i : Instr) (rest : List Instr) (hseq : s.seq = i :: rest)
      (h : t.registers = ({ s with seq := rest } : State).registers)
  | failsInit (hp : s.phase = .init) (h : t.registers = (failInit s).registers)
  | failsOutsideInit (hp : s.phase ≠ .init) (h : t.registers = (runtimeFailure s).registers)
  /-- The script of a stage is done and the next stage follows, or `seq` itself holds a stage instruction. -/
  | entersStage (n : StageNum) (i : Instr) (hn : decodeStage n = some i) (hp : s.phase = .init)
      (hfrom : n = s.stage + 1#3 ∨ i ∈ s.seq) (h : t.registers = (stageEntered n s).registers)
  | completesInit (hdue : InitEndDue s) (h : t.registers = (completeInit s).registers)
  | startsRequest (w : ReqWord) (sc : Script) (hsc : requestScript s.cfg s.bl w = some sc) (hp : s.phase = .ready)
      (h : t.registers = (startRequest sc s).registers)
  | completesRequest (hseq : s.seq = []) (h : t.registers = (completeRequest s).registers)
  | resets (hq : Quiescent s) (hhost : ∃ later, s.host = .reset :: later) (h : t.registers = (applyReset s).registers)

/-- The instructions of the stages, in order. -/
def stageInstrs : List Instr := [.initS1, .initS2, .initS3, .initS4, .initS5, .initS6, .initS7]

theorem mem_stageInstrs {n : StageNum} {i : Instr} (h : decodeStage n = some i) : i ∈ stageInstrs := by
  have hall : ∀ n : StageNum, (decodeStage n).all (· ∈ stageInstrs) = true := by decide
  simpa [h] using hall n

theorem decodeReq_not_mem_stageInstrs (w : ReqWord) : decodeReq w ∉ stageInstrs := by
  unfold decodeReq
  repeat' split
  all_goals simp [stageInstrs]

/-- A presented request does to the registers what its instruction does, and it enters no stage. -/
theorem stepMove_of_request {w : ReqWord} {later : List HostMove} {s t : State}
    (h : exec (decodeReq w) { s with host := later } = .next t) : StepMove s t := by
  cases exec_next_move h with
  | keeps h => exact .keeps h
  | failsInit hp h => exact .failsInit hp h
  | failsOutsideInit hp h => exact .failsOutsideInit hp h
  | entersStage n hn _ _ => exact absurd (mem_stageInstrs hn) (decodeReq_not_mem_stageInstrs w)
  | startsRequest w' sc hsc hp h => exact .startsRequest w' sc hsc hp h

/-- The head of `seq` does to the registers what its instruction does, and is removed. -/
theorem stepMove_of_head {i : Instr} {rest : List Instr} {later : List HostMove} {s t : State}
    (hseq : s.seq = i :: rest) (h : exec i { s with host := later, seq := rest } = .next t) : StepMove s t := by
  cases exec_next_move h with
  | keeps h => exact .acts i rest hseq h
  | failsInit hp h => exact .failsInit hp h
  | failsOutsideInit hp h => exact .failsOutsideInit hp h
  | entersStage n hn hp h => exact .entersStage n i hn hp (.inr (by simp [hseq])) h
  | startsRequest w sc hsc hp h => exact .startsRequest w sc hsc hp h

theorem stepMove_of_sequencer {later : List HostMove} {s t : State}
    (h : sequencerStep { s with host := later } = .next t) : StepMove s t := by
  rcases sequencerStep_next h with
    ⟨i, rest, hseq, he⟩ | ⟨hdue, rfl⟩ | ⟨-, -, -, i, hn, he⟩ | ⟨hseq, -, -, rfl⟩ | ⟨-, -, -, rfl⟩
  · exact stepMove_of_head hseq he
  · exact .completesInit hdue rfl
  · obtain ⟨hp, rfl⟩ := exec_stage_next hn he
    exact .entersStage _ i hn hp (.inl rfl) rfl
  · exact .completesRequest hseq rfl
  · exact .keeps rfl

/-- A step that answers a next state makes one of the moves of `StepMove`. -/
theorem step_next_move {s t : State} (h : step s = .next t) : StepMove s t := by
  obtain ⟨-, ⟨later, hhost, hq, rfl⟩ | ⟨w, later, -, -, hdue, -, rfl⟩ | ⟨w, later, -, -, -, he⟩ | ⟨later, -, -, -, he⟩⟩ :=
    step_next h
  · exact .resets hq ⟨later, hhost⟩ rfl
  · unfold initEndWithRequest
    split
    · exact .completesInit hdue rfl
    · exact .keeps rfl
  · exact stepMove_of_request he
  · exact stepMove_of_sequencer he

/-! ## Who writes `phase`, `bl` and `fail_stage` -/

/-- Settles O42: of the moves, only the end of INIT, its failure and the reset set `phase`. -/
theorem phaseTransitions : Obligations.PhaseTransitions := by
  intro s t hstep
  cases step_next_move hstep with
  | keeps h => exact .inl (congrArg Registers.phase h)
  | acts _ _ _ h => exact .inl (congrArg Registers.phase h)
  | failsInit hp h =>
    exact .inr (.inr (.inl ⟨hp, congrArg Registers.phase h, congrArg Registers.failStage h⟩))
  | failsOutsideInit _ h => exact .inl (congrArg Registers.phase h)
  | entersStage _ _ _ _ _ h => exact .inl (congrArg Registers.phase h)
  | completesInit hdue h =>
    obtain ⟨hp, hstage, hseq⟩ := hdue
    exact .inr (.inl ⟨hp, congrArg Registers.phase h, hstage, hseq⟩)
  | startsRequest _ _ _ _ h => exact .inl (congrArg Registers.phase h)
  | completesRequest _ h => exact .inl (congrArg Registers.phase h)
  | resets hq hhost h => exact .inr (.inr (.inr ⟨congrArg Registers.phase h, hq, hhost⟩))

/-- Settles O43: of the moves, only entering stage 6 and the reset set `bl`. -/
theorem backlightWriters : Obligations.BacklightWriters := by
  intro s t hstep
  cases step_next_move hstep with
  | keeps h => exact .inl (congrArg Registers.bl h)
  | acts _ _ _ h => exact .inl (congrArg Registers.bl h)
  | failsInit _ h => exact .inl (congrArg Registers.bl h)
  | failsOutsideInit _ h => exact .inl (congrArg Registers.bl h)
  | entersStage n _ _ hp _ h =>
    have hbl : t.bl = if n = 6#3 then 1#1 else s.bl := congrArg Registers.bl h
    by_cases h6 : n = 6#3
    · exact .inr (.inr ⟨hbl.trans (if_pos h6), hp, (congrArg Registers.stage h).trans h6⟩)
    · exact .inl (hbl.trans (if_neg h6))
  | completesInit _ h => exact .inl (congrArg Registers.bl h)
  | startsRequest _ _ _ _ h => exact .inl (congrArg Registers.bl h)
  | completesRequest _ h => exact .inl (congrArg Registers.bl h)
  | resets _ hhost h => exact .inr (.inl ⟨congrArg Registers.bl h, hhost⟩)

/-- Settles O44: of the moves, only a failure in INIT and the reset set `fail_stage`. -/
theorem failStageWriters : Obligations.FailStageWriters := by
  intro s t hstep
  cases step_next_move hstep with
  | keeps h => exact .inl (congrArg Registers.failStage h)
  | acts _ _ _ h => exact .inl (congrArg Registers.failStage h)
  | failsInit hp h =>
    exact .inr (.inr ⟨hp, congrArg Registers.phase h, congrArg Registers.failStage h⟩)
  | failsOutsideInit _ h => exact .inl (congrArg Registers.failStage h)
  | entersStage _ _ _ _ _ h => exact .inl (congrArg Registers.failStage h)
  | completesInit _ h => exact .inl (congrArg Registers.failStage h)
  | startsRequest _ _ _ _ h => exact .inl (congrArg Registers.failStage h)
  | completesRequest _ h => exact .inl (congrArg Registers.failStage h)
  | resets _ hhost h => exact .inr (.inl ⟨congrArg Registers.failStage h, hhost⟩)

/-! ## The invariant, move by move -/

/-- The invariant speaks of the registers only. -/
theorem blockInv_of_registers {s t : State} (h : t.registers = s.registers) (hs : BlockInv s) : BlockInv t := by
  simp only [State.registers, Registers.mk.injEq] at h
  obtain ⟨hphase, hstage, hbl, hfail, hbusy, hseq⟩ := h
  exact {
    legalStage := by simpa only [LegalStage, hphase, hstage] using hs.legalStage
    busyReady := by simpa only [hphase, hbusy] using hs.busyReady
    idleEmpty := by simpa only [hphase, hbusy, hseq] using hs.idleEmpty
    failStage := by simpa only [hphase, hfail] using hs.failStage
    backlight := by simpa only [backlightOf, hphase, hstage, hbl, hfail] using hs.backlight
    items := by simpa only [hbl, hseq] using hs.items
    enable := by simpa only [hseq] using hs.enable }

/-- In INIT no operation runs (10_state.md R25). -/
theorem BlockInv.notBusy_of_init {s : State} (hs : BlockInv s) (hp : s.phase = .init) : s.busy = false := by
  cases hb : s.busy
  · rfl
  · exact absurd (hp.symm.trans (hs.busyReady hb)) (by decide)

theorem backlightOf_init {s : State} (hp : s.phase = .init) :
    backlightOf s = if s.stage.toNat ≤ 5 then 0#1 else 1#1 := by
  simp only [backlightOf, hp]

/-- Outside FAILED `fail_stage` is 0 (10_state.md R24). -/
theorem BlockInv.failStage_zero {s : State} (hs : BlockInv s) (hp : s.phase ≠ .failed) : s.failStage = 0#3 :=
  by_contra fun hf => hp (hs.failStage.2 hf)

theorem EnOwned.tail {i : Instr} {rest : List Instr} (h : EnOwned (i :: rest)) : EnOwned rest := by
  cases i
  case expWrite v => exact h.2
  all_goals exact h

theorem blockInv_acts {s : State} {i : Instr} {rest : List Instr} (hs : BlockInv s) (hseq : s.seq = i :: rest) :
    BlockInv { s with seq := rest } where
  legalStage := hs.legalStage
  busyReady := hs.busyReady
  idleEmpty := fun hp hb => absurd (hseq.symm.trans (hs.idleEmpty hp hb)) (List.cons_ne_nil i rest)
  failStage := hs.failStage
  backlight := hs.backlight
  items := fun j hj => hs.items j (hseq ▸ List.mem_cons_of_mem i hj)
  enable := EnOwned.tail (hseq ▸ hs.enable)

theorem blockInv_failInit {s : State} (hs : BlockInv s) (hp : s.phase = .init) : BlockInv (failInit s) where
  legalStage := by simp [LegalStage]
  busyReady := by simp [hs.notBusy_of_init hp]
  idleEmpty := by simp
  failStage := by simpa using hs.legalStage.1 hp
  backlight := hs.backlight.trans (backlightOf_init hp)
  items := by simp
  enable := trivial

theorem blockInv_runtimeFailure {s : State} (hs : BlockInv s) : BlockInv (runtimeFailure s) where
  legalStage := hs.legalStage
  busyReady := by simp
  idleEmpty := by simp
  failStage := hs.failStage
  backlight := hs.backlight
  items := by simp
  enable := trivial

/-- `bl` stays right from a stage to the next, because it is set to 1 on the way from 5 to 6 (10_state.md R23). -/
theorem backlight_next_stage : ∀ m : StageNum, m + 1#3 ≠ 0#3 →
    (if m + 1#3 = 6#3 then 1#1 else if m.toNat ≤ 5 then 0#1 else 1#1) =
      if (m + 1#3).toNat ≤ 5 then 0#1 else 1#1 := by
  decide

theorem blockInv_stageEntered {s : State} (hs : BlockInv s) (hp : s.phase = .init) (hn : s.stage + 1#3 ≠ 0#3) :
    BlockInv (stageEntered (s.stage + 1#3) s) where
  legalStage := iff_of_true hp hn
  busyReady := hs.busyReady
  idleEmpty := fun h => absurd hp h
  failStage := hs.failStage
  backlight := by
    rw [backlightOf_init (s := stageEntered _ s) hp]
    simpa only [stageEntered, hs.backlight, backlightOf_init hp] using backlight_next_stage s.stage hn
  items := ScriptOk.stage.items.1
  enable := ScriptOk.stage.items.2

theorem blockInv_completeInit {s : State} (hs : BlockInv s) (hdue : InitEndDue s) : BlockInv (completeInit s) := by
  obtain ⟨hp, hstage, hseq⟩ := hdue
  exact {
    legalStage := by simp [LegalStage]
    busyReady := by simp
    idleEmpty := by simp [hseq]
    failStage := by simp [hs.failStage_zero (hp ▸ by decide)]
    backlight := by rw [completeInit_bl, hs.backlight, backlightOf_init hp, hstage]; rfl
    items := by simp [hseq]
    enable := by rw [completeInit_seq, hseq]; trivial }

theorem blockInv_startRequest {s : State} {w : ReqWord} {sc : Script} (hs : BlockInv s) (hp : s.phase = .ready)
    (hsc : requestScript s.cfg s.bl w = some sc) : BlockInv (startRequest sc s) where
  legalStage := hs.legalStage
  busyReady := fun _ => hp
  idleEmpty := by simp
  failStage := hs.failStage
  backlight := hs.backlight
  items := (ScriptOk.request hsc).items.1
  enable := (ScriptOk.request hsc).items.2

theorem blockInv_completeRequest {s : State} (hs : BlockInv s) (hseq : s.seq = []) : BlockInv (completeRequest s) where
  legalStage := hs.legalStage
  busyReady := by simp
  idleEmpty := fun _ _ => hseq
  failStage := hs.failStage
  backlight := hs.backlight
  items := hs.items
  enable := hs.enable

/-- The reset sets every register, so the invariant holds after it whatever stood before (10_state.md R34). -/
theorem blockInv_applyReset (s : State) : BlockInv (applyReset s) := by
  have hsc : ScriptOk blReset (powerSettleScript s.cfg blReset) := powerSettleScript_eq s.cfg blReset ▸ .stage
  exact {
    legalStage := by simp [LegalStage]
    busyReady := by simp
    idleEmpty := by simp
    failStage := by simp
    backlight := by simp [backlightOf, blReset]
    items := hsc.items.1
    enable := hsc.items.2 }

/-- Settles O48: the state right after reset has the registers that the reset input sets. -/
theorem resetMeetsInvariant : Obligations.ResetMeetsInvariant :=
  blockInv_of_registers (s := applyReset State.reset) rfl (blockInv_applyReset State.reset)

/-- No stage instruction stands in the `seq` of a state that meets the invariant. -/
theorem BlockInv.stage_not_mem_seq {s : State} {n : StageNum} {i : Instr} (hs : BlockInv s)
    (hn : decodeStage n = some i) : i ∉ s.seq := by
  intro hi
  have hok : SeqItemOk s.bl i := hs.items i hi
  have hstage := mem_stageInstrs hn
  simp only [stageInstrs, List.mem_cons, List.not_mem_nil, or_false] at hstage
  rcases hstage with rfl | rfl | rfl | rfl | rfl | rfl | rfl <;> exact hok

theorem decodeStage_ne_zero {n : StageNum} {i : Instr} (hn : decodeStage n = some i) : n ≠ 0#3 := by
  rintro rfl
  cases hn

/-- Settles O47: each move of a step keeps the invariant. A stage can only be the next one, because a running script holds
no stage instruction. -/
theorem stepKeepsInvariant : Obligations.StepKeepsInvariant := by
  intro s t hs hstep
  cases step_next_move hstep with
  | keeps h => exact blockInv_of_registers h hs
  | acts i rest hseq h => exact blockInv_of_registers h (blockInv_acts hs hseq)
  | failsInit hp h => exact blockInv_of_registers h (blockInv_failInit hs hp)
  | failsOutsideInit _ h => exact blockInv_of_registers h (blockInv_runtimeFailure hs)
  | entersStage n i hn hp hfrom h =>
    obtain rfl : n = s.stage + 1#3 := hfrom.resolve_right (hs.stage_not_mem_seq hn)
    exact blockInv_of_registers h (blockInv_stageEntered hs hp (decodeStage_ne_zero hn))
  | completesInit hdue h => exact blockInv_of_registers h (blockInv_completeInit hs hdue)
  | startsRequest w sc hsc hp h => exact blockInv_of_registers h (blockInv_startRequest hs hp hsc)
  | completesRequest hseq h => exact blockInv_of_registers h (blockInv_completeRequest hs hseq)
  | resets _ _ h => exact blockInv_of_registers h (blockInv_applyReset _)

end Sys2Proof.Machine

/-! PROOFS. Family 20_memory.md: a step only adds events at the end of the trace, and the writes it adds go to the expander
with R/W = 0. -/
namespace Sys2Proof.Machine

/-! ## Events added to the trace -/

/-- From `s` to `t`, events that satisfy `ok` are added at the end of the trace, and nothing else happens to it. -/
def TraceAdds (ok : Event → Prop) (s t : State) : Prop :=
  ∃ added, t.trace = s.trace ++ added ∧ ∀ e ∈ added, ok e

/-- A response (20_memory.md R60). -/
def Event.IsResponse (e : Event) : Prop := ∃ r, e = .r r

/-- A write goes to `addr` with a payload that satisfies `ok`; of delays and responses nothing is asked. -/
def Event.Writes (addr : DevAddr) (ok : Byte → Prop) (e : Event) : Prop :=
  ∀ a v ack, e = .w a v ack → a = addr ∧ ok v

theorem Event.IsResponse.writes {e : Event} (h : e.IsResponse) (addr : DevAddr) (ok : Byte → Prop) :
    e.Writes addr ok := by
  obtain ⟨r, rfl⟩ := h
  intro _ _ _ he
  cases he

theorem TraceAdds.of_trace_eq {ok : Event → Prop} {s t : State} (h : t.trace = s.trace) : TraceAdds ok s t :=
  ⟨[], by simpa using h, by simp⟩

theorem TraceAdds.trans {ok : Event → Prop} {s t u : State} (hst : TraceAdds ok s t) (htu : TraceAdds ok t u) :
    TraceAdds ok s u := by
  obtain ⟨a, ha, hokA⟩ := hst
  obtain ⟨b, hb, hokB⟩ := htu
  exact ⟨a ++ b, by rw [hb, ha, List.append_assoc], fun e he => (List.mem_append.1 he).elim (hokA e) (hokB e)⟩

theorem TraceAdds.mono {ok ok' : Event → Prop} {s t : State} (hok : ∀ e, ok e → ok' e) (h : TraceAdds ok s t) :
    TraceAdds ok' s t := by
  obtain ⟨added, htrace, hadded⟩ := h
  exact ⟨added, htrace, fun e he => hok e (hadded e he)⟩

theorem TraceAdds.isPrefix {ok : Event → Prop} {s t : State} (h : TraceAdds ok s t) : s.trace <+: t.trace := by
  obtain ⟨added, htrace, -⟩ := h
  exact ⟨added, htrace.symm⟩

/-- Added writes that go to the expander with R/W = 0 keep the trace clean. -/
theorem TraceClean.of_adds {s t : State} (hs : TraceClean s) (hcfg : t.cfg = s.cfg)
    (h : TraceAdds (Event.Writes s.cfg.expanderAddr7 (·.getLsbD 1 = false)) s t) : TraceClean t := by
  obtain ⟨added, htrace, hadded⟩ := h
  intro addr v ack he
  rw [htrace, List.mem_append] at he
  rw [hcfg]
  exact he.elim (hs addr v ack) fun he => hadded _ he addr v ack rfl

/-! ## What the shared operations add -/

theorem traceAdds_respond (r : Response) (s : State) : TraceAdds Event.IsResponse s (respond r s) :=
  ⟨[.r r], respond_trace r s, by simp [Event.IsResponse]⟩

/-- Each failure path adds responses only (41_init_fsm.md R151, 42_runtime_ops.md R171). -/
theorem traceAdds_busFailure (s : State) : TraceAdds Event.IsResponse s (busFailure s) := by
  rcases busFailure_cases s with ⟨-, h⟩ | ⟨-, -, h⟩ | ⟨-, -, h⟩ <;> rw [h]
  · exact initFailure_trace_grows s
  · exact traceAdds_respond _ { s with busy := false, seq := [] }
  · exact .of_trace_eq rfl

theorem traceAdds_initEndWithRequest (s : State) : TraceAdds Event.IsResponse s (initEndWithRequest s) := by
  unfold initEndWithRequest
  split
  · exact .trans (t := completeInit { s with draws := s.draws + 1 })
      (traceAdds_respond initOk { s with draws := s.draws + 1, phase := .ready, stage := 0#3 }) (traceAdds_respond _ _)
  · exact traceAdds_respond _ { s with draws := s.draws + 1 }

theorem acceptRequest_next_adds {w : ReqWord} {sc : Script} {s t : State} (h : acceptRequest w sc s = .next t) :
    TraceAdds Event.IsResponse s t := by
  rcases acceptRequest_cases w sc s with ⟨-, hw⟩ | ⟨-, -, hw⟩ | ⟨-, -, hw⟩ <;> rw [hw] at h <;> cases h
  · exact .of_trace_eq rfl
  · exact traceAdds_respond _ s
  · exact .of_trace_eq rfl

theorem acceptReserved_next_adds {w : ReqWord} {s t : State} (h : acceptReserved w s = .next t) :
    TraceAdds Event.IsResponse s t := by
  rcases acceptReserved_cases w s with ⟨-, hw⟩ | ⟨-, hw⟩ <;> rw [hw] at h <;> cases h
  · exact .of_trace_eq rfl
  · exact traceAdds_respond _ s

/-- Entering a stage adds nothing: its script is only loaded (41_init_fsm.md R148). -/
theorem exec_stage_next_adds {n : StageNum} {i : Instr} {s t : State} (hn : decodeStage n = some i)
    (h : exec i s = .next t) : TraceAdds Event.IsResponse s t := by
  obtain ⟨-, rfl⟩ := exec_stage_next hn h
  exact .of_trace_eq rfl

/-- A presented request writes nothing itself: it is answered, or its script is loaded (42_runtime_ops.md R170). -/
theorem exec_decodeReq_next_adds {w : ReqWord} {s t : State} (h : exec (decodeReq w) s = .next t) :
    TraceAdds Event.IsResponse s t := by
  rw [exec_decodeReq] at h
  cases hsc : requestScript s.cfg s.bl w with
  | some sc => rw [hsc] at h; exact acceptRequest_next_adds h
  | none => rw [hsc] at h; exact acceptReserved_next_adds h

/-! ## What a script adds -/

theorem write_mem_scriptEvents {addr a : DevAddr} {v : Byte} {ack : Ack} {sc : Script} :
    Event.w a v ack ∈ scriptEvents addr sc ↔ a = addr ∧ v ∈ scriptWrites sc ∧ ack = .ok := by
  induction sc with
  | nil => simp [scriptEvents, scriptWrites]
  | cons x sc ih =>
    cases x with
    | w u => simp only [scriptEvents, scriptWrites, List.mem_cons, Event.w.injEq, ih]; tauto
    | d t => by_cases ht : t = 0 <;> simp [scriptEvents, scriptWrites, ht, ih]

/-- The events of a script write its payloads to the expander. -/
theorem scriptEvents_writes {addr : DevAddr} {sc : Script} {e : Event} (he : e ∈ scriptEvents addr sc) :
    e.Writes addr (· ∈ scriptWrites sc) := by
  rintro a v ack rfl
  obtain ⟨ha, hv, -⟩ := write_mem_scriptEvents.1 he
  exact ⟨ha, hv⟩

theorem traceAdds_afterScript (sc : Script) (s : State) :
    TraceAdds (Event.Writes s.cfg.expanderAddr7 (· ∈ scriptWrites sc)) s (afterScript sc s) :=
  ⟨scriptEvents s.cfg.expanderAddr7 sc, rfl, fun _ => scriptEvents_writes⟩

/-- A script that fails adds the events up to its failed write, and the failed write. -/
theorem traceAdds_afterFailedWrite (before after : Script) (v : Byte) (s : State) :
    TraceAdds (Event.Writes s.cfg.expanderAddr7 (· ∈ scriptWrites (before ++ .w v :: after))) s
      (afterFailedWrite before v s) := by
  refine ⟨scriptEvents s.cfg.expanderAddr7 before ++ [.w s.cfg.expanderAddr7 v .fail],
    by simp [afterFailedWrite], ?_⟩
  rintro _ he a u ack rfl
  rw [List.mem_append, write_mem_scriptEvents, List.mem_singleton, Event.w.injEq] at he
  rw [scriptWrites_append, scriptWrites]
  rcases he with ⟨ha, hu, -⟩ | ⟨ha, hu, -⟩
  · exact ⟨ha, List.mem_append_left _ hu⟩
  · exact ⟨ha, by simp [hu]⟩

/-- Running a script adds writes of its payloads to the expander, delays and responses (40_encoder.md R110, R112). -/
theorem runScript_next_adds {sc : Script} {s t : State} (h : runScript sc s = .next t) :
    TraceAdds (Event.Writes s.cfg.expanderAddr7 (· ∈ scriptWrites sc)) s t := by
  rcases runScript_next h with rfl | ⟨before, v, after, rfl, rfl⟩
  · exact traceAdds_afterScript sc s
  · exact (traceAdds_afterFailedWrite before after v s).trans
      ((traceAdds_busFailure _).mono fun _ he => he.writes _ _)

/-! ## What a step adds -/

/-- An instruction only adds events. -/
theorem exec_next_trace_grows {i : Instr} {s t : State} (h : exec i s = .next t) : s.trace <+: t.trace := by
  rcases exec_cases i s with ⟨sc, he⟩ | ⟨n, hn⟩ | ⟨w, sc, -, he⟩ | ⟨w, he⟩
  · exact (runScript_next_adds (he ▸ h)).isPrefix
  · exact (exec_stage_next_adds hn h).isPrefix
  · exact (acceptRequest_next_adds (he ▸ h)).isPrefix
  · exact (acceptReserved_next_adds (he ▸ h)).isPrefix

/-- An instruction that can stand in a running script adds writes with R/W = 0 to the expander, delays and responses. -/
theorem exec_seqItem_next_adds {bl : Bit} {i : Instr} {s t : State} (hi : SeqItemOk bl i) (h : exec i s = .next t) :
    TraceAdds (Event.Writes s.cfg.expanderAddr7 (·.getLsbD 1 = false)) s t := by
  have hscript : ∃ sc, exec i s = runScript sc s ∧ ∀ v ∈ scriptWrites sc, v.getLsbD 1 = false := by
    cases i
    case expWrite v => exact ⟨[.w v], rfl, by simpa [scriptWrites] using hi.1⟩
    case delay n => exact ⟨[.d n], rfl, by simp [scriptWrites]⟩
    all_goals exact hi.elim
  obtain ⟨sc, he, hclean⟩ := hscript
  refine (runScript_next_adds (he ▸ h)).mono fun e hw a v ack hev => ?_
  obtain ⟨ha, hv⟩ := hw a v ack hev
  exact ⟨ha, hclean v hv⟩

theorem sequencerStep_next_adds {s t : State} (h : sequencerStep s = .next t) :
    TraceAdds Event.IsResponse s t ∨ ∃ i rest, s.seq = i :: rest ∧ exec i { s with seq := rest } = .next t := by
  rcases sequencerStep_next h with hhead | ⟨-, rfl⟩ | ⟨-, -, -, i, hn, he⟩ | ⟨-, -, -, rfl⟩ | ⟨-, -, -, rfl⟩
  · exact .inr hhead
  · exact .inl (traceAdds_respond initOk { s with phase := .ready, stage := 0#3 })
  · exact .inl (exec_stage_next_adds hn he)
  · exact .inl (traceAdds_respond (requestDone .ok) { s with busy := false })
  · exact .inl (.of_trace_eq rfl)

/-- A step adds responses only, or it is the meaning of the head of `seq` (10_state.md R27). -/
theorem step_next_adds {s t : State} (h : step s = .next t) :
    TraceAdds Event.IsResponse s t ∨
    ∃ i rest later, s.seq = i :: rest ∧ exec i { s with host := later, seq := rest } = .next t := by
  obtain ⟨-, ⟨later, -, -, rfl⟩ | ⟨w, later, -, -, -, -, rfl⟩ | ⟨w, later, -, -, -, he⟩ | ⟨later, -, -, -, he⟩⟩ :=
    step_next h
  · exact .inl (.of_trace_eq rfl)
  · exact .inl (traceAdds_initEndWithRequest { s with host := later })
  · exact .inl (exec_decodeReq_next_adds he :)
  · exact (sequencerStep_next_adds he).imp id fun ⟨i, rest, hseq, hi⟩ => ⟨i, rest, later, hseq, hi⟩

/-- Settles O46: a step adds responses, or what the head of `seq` adds. -/
theorem traceOnlyGrows : Obligations.TraceOnlyGrows := by
  intro s t hstep
  rcases step_next_adds hstep with hadds | ⟨i, rest, later, -, hexec⟩
  · exact hadds.isPrefix
  · exact (exec_next_trace_grows hexec :)

/-- Settles O49: only the head of `seq` writes, and the invariant makes it a write with R/W = 0 or a delay. -/
theorem writesStayClean : Obligations.WritesStayClean := by
  intro s t hs hclean hstep
  refine hclean.of_adds (configurationFixed s t hstep) ?_
  rcases step_next_adds hstep with hadds | ⟨i, rest, later, hseq, hexec⟩
  · exact hadds.mono fun _ he => he.writes _ _
  · have hi : SeqItemOk s.bl i := hs.items i (by simp [hseq])
    exact (exec_seqItem_next_adds hi hexec :)

end Sys2Proof.Machine

/-! PROOFS. Family 30_encoding.md: the decoder reads back what the encoder writes, every request word decodes, malformed
words are rejected, and the rows of controller words and payloads do what their words say. -/
namespace Sys2Proof.Machine

/-! ## A word that fits its place is read by the fields of its format -/

/-- A bit vector as wide as the format is never too wide (30_encoding.md R80). -/
theorem decode_toNat {f : Format} {n : Nat} (hf : f.width = some n) (w : BitVec n) :
    decode f w.toNat = decodeFitting f w.toNat := by
  simp only [decode, hf, if_pos w.isLt]

theorem decode_tooWide {f : Format} {n w : Nat} (hf : f.width = some n) (hw : 2 ^ n ≤ w) :
    decode f w = .error .tooWide := by
  simp only [decode, hf, if_neg (Nat.not_lt.2 hw)]

theorem decode_req (w : ReqWord) : decode .req w.toNat = .ok (decodeReq w) := by
  simp [decode_toNat (f := .req) rfl, decodeFitting]

theorem decode_expWrite (v : Byte) : decode .expWrite v.toNat = .ok (.expWrite v) := by
  simp [decode_toNat (f := .expWrite) rfl, decodeFitting]

theorem decode_sendByte (value rs : Byte) : decode (.sendByte rs) value.toNat = .ok (.sendByte value rs) := by
  simp [decode_toNat (f := .sendByte rs) rfl, decodeFitting]

theorem decode_exp (b : Byte) : decode .exp b.toNat = decodePayload b := by
  simp [decode_toNat (f := .exp) rfl, decodeFitting]

theorem decode_expBacklight {b : Byte} (hfixed : b &&& 0xF7#8 = 0#8) :
    decode .expBacklight b.toNat = .ok (.expBacklightOnly (b.extractLsb' 3 1)) := by
  simp [decode_toNat (f := .expBacklight) rfl, decodeFitting, hfixed]

theorem decode_sendNibble {b : Byte} (hrw : b[1] = false) :
    decode .sendNibble b.toNat = .ok (.sendNibble (b &&& 0xF0#8) (b &&& 0x01#8)) := by
  simp [decode_toNat (f := .sendNibble) rfl, decodeFitting, hrw]

/-- A word with RS = 0 at the places of controller words. -/
theorem decode_registerSelect_clear {w : BitVec 9} (hrs : w[8] = false) :
    decode .irPass w.toNat = .ok (.irCommand (w.extractLsb' 0 8)) ∧
    decode .sendCommand w.toNat = .ok (.sendCommand (w.extractLsb' 0 8)) := by
  simp [decode_toNat (f := .irPass) rfl, decode_toNat (f := .sendCommand) rfl, decodeFitting, hrs]

/-- A word with RS = 1 at the places of controller words. -/
theorem decode_registerSelect_set {w : BitVec 9} (hrs : w[8] = true) :
    decode .irPass w.toNat = .ok (.irData (w.extractLsb' 0 8)) ∧
    decode .sendCharacter w.toNat = .ok (.sendCharacter (w.extractLsb' 0 8)) := by
  simp [decode_toNat (f := .irPass) rfl, decode_toNat (f := .sendCharacter) rfl, decodeFitting, hrs]

/-! ## Request words -/

/-- Bit 2 of `op` tells the reserved values 1xx from the four requests (30_encoding.md R82). -/
theorem reservedOp_iff (op : BitVec 3) :
    op.getLsbD 2 = true ↔ op ≠ 0#3 ∧ op ≠ 1#3 ∧ op ≠ 2#3 ∧ op ≠ 3#3 := by
  revert op
  decide

theorem decodeReq_reserved {w : ReqWord} (h : (reqOp w).getLsbD 2 = true) :
    decodeReq w = .rsv (reqOp w) (reqData w) := by
  obtain ⟨h0, h1, h2, h3⟩ := (reservedOp_iff _).1 h
  rw [decodeReq, if_neg h0, if_neg h1, if_neg h2, if_neg h3]

theorem wellFormed_rsv {op : BitVec 3} {data : Byte} : WellFormed (.rsv op data) ↔ op.getLsbD 2 = true := by
  simp [WellFormed, Instr.illFormed?]

/-- A request word, by its `op`: a request, or a reserved one (30_encoding.md R82). -/
theorem decodeReq_cases (w : ReqWord) :
    (reqOp w = 0#3 ∧ decodeReq w = .wcmd (reqData w)) ∨ (reqOp w = 1#3 ∧ decodeReq w = .wchr (reqData w)) ∨
    (reqOp w = 2#3 ∧ decodeReq w = .line1 (reqData w)) ∨ (reqOp w = 3#3 ∧ decodeReq w = .line2 (reqData w)) ∨
    ((reqOp w).getLsbD 2 = true ∧ decodeReq w = .rsv (reqOp w) (reqData w)) := by
  have hop : ∀ op : BitVec 3, op = 0#3 ∨ op = 1#3 ∨ op = 2#3 ∨ op = 3#3 ∨ op.getLsbD 2 = true := by decide
  rcases hop (reqOp w) with h | h | h | h | h
  · exact .inl ⟨h, by simp [decodeReq, h]⟩
  · exact .inr (.inl ⟨h, by simp [decodeReq, h]⟩)
  · exact .inr (.inr (.inl ⟨h, by simp [decodeReq, h]⟩))
  · exact .inr (.inr (.inr (.inl ⟨h, by simp [decodeReq, h]⟩)))
  · exact .inr (.inr (.inr (.inr ⟨h, decodeReq_reserved h⟩)))

theorem wellFormed_decodeReq (w : ReqWord) : WellFormed (decodeReq w) := by
  rcases decodeReq_cases w with ⟨-, h⟩ | ⟨-, h⟩ | ⟨-, h⟩ | ⟨-, h⟩ | ⟨hop, h⟩ <;> rw [h]
  · rfl
  · rfl
  · rfl
  · rfl
  · exact wellFormed_rsv.2 hop

/-- Encoding puts the fields of a request word back where they were. -/
theorem encode_decodeReq (w : ReqWord) : encode (decodeReq w) = (.req, w.toNat) := by
  rcases decodeReq_cases w with ⟨hop, h⟩ | ⟨hop, h⟩ | ⟨hop, h⟩ | ⟨hop, h⟩ | ⟨-, h⟩ <;> rw [h, encode]
  · rw [← hop, reqWord_fields]
  · rw [← hop, reqWord_fields]
  · rw [← hop, reqWord_fields]
  · rw [← hop, reqWord_fields]
  · rw [reqWord_fields]

/-- Settles O3: the port's decoder is total, and by cases on `op` the encoding has the word's own fields. -/
theorem everyRequestWordDecodes : Obligations.EveryRequestWordDecodes := fun w =>
  ⟨decode_req w, wellFormed_decodeReq w, encode_decodeReq w⟩

/-! ## Controller words: RS in bit 8, the byte in bits 7:0 -/

theorem extractLsb_commandWord (d : Byte) : (0x000#9 ||| d.setWidth 9).extractLsb' 0 8 = d := by
  apply BitVec.eq_of_getLsbD_eq
  intro i hi
  simp [hi, show i < 9 by omega]

theorem extractLsb_dataWord (d : Byte) : (0x100#9 ||| d.setWidth 9).extractLsb' 0 8 = d := by
  rw [BitVec.extractLsb'_or, show (0x100#9).extractLsb' 0 8 = 0#8 by decide, BitVec.zero_or,
    ← BitVec.zero_or (x := d.setWidth 9), extractLsb_commandWord]

theorem decode_commandWord (d : Byte) :
    decode .irPass (0x000#9 ||| d.setWidth 9).toNat = .ok (.irCommand d) ∧
    decode .sendCommand (0x000#9 ||| d.setWidth 9).toNat = .ok (.sendCommand d) := by
  have h := decode_registerSelect_clear (w := 0x000#9 ||| d.setWidth 9) (by simp)
  rwa [extractLsb_commandWord] at h

theorem decode_dataWord (d : Byte) :
    decode .irPass (0x100#9 ||| d.setWidth 9).toNat = .ok (.irData d) ∧
    decode .sendCharacter (0x100#9 ||| d.setWidth 9).toNat = .ok (.sendCharacter d) := by
  have h := decode_registerSelect_set (w := 0x100#9 ||| d.setWidth 9) (by simp)
  rwa [extractLsb_dataWord] at h

/-- The 9-bit IR_DISPLAY_CONTROL word is the byte the block sends, with RS = 0. -/
theorem displayControlWord_toNat (cb : BitVec 2) :
    (0x00C#9 ||| cb.setWidth 9).toNat = (displayControlWord cb).toNat := by
  revert cb
  decide

/-! ## Payloads -/

@[simp] theorem payloadWord_rs (db : Nibble) (bt en rs : Bit) : (payloadWord db bt en rs).extractLsb' 0 1 = rs := by
  apply BitVec.eq_of_getLsbD_eq
  intro i hi
  obtain rfl : i = 0 := by omega
  simp [payloadWord]

/-- A payload is read by its EN bit, since its R/W bit is 0 (30_encoding.md R85). -/
theorem decode_payloadWord (db : Nibble) (bt en rs : Bit) :
    decode .exp (payloadWord db bt en rs).toNat =
      .ok (if en[0] then .expStrobe db bt rs else .expSettleRelease db bt rs) := by
  rw [decode_exp]
  cases hen : en[0] <;> simp [decodePayload, BitVec.getLsbD_eq_getElem, hen]

theorem decode_backlightPayload (bt : Bit) :
    decode .expBacklight (payloadWord 0#4 bt 0#1 0#1).toNat = .ok (.expBacklightOnly bt) := by
  have hfixed : ∀ bt : Bit, payloadWord 0#4 bt 0#1 0#1 &&& 0xF7#8 = 0#8 := by decide
  rw [decode_expBacklight (hfixed bt), payloadWord_backlight]

/-! ## The pattern of SEND_NIBBLE: the nibble in bits 7:4, RS in bit 0 -/

/-- A word without bits outside a mask is its own masked part. -/
theorem and_mask_eq_self {n : Nat} {x m : BitVec n} (h : x &&& ~~~m = 0#n) : x &&& m = x := by
  calc x &&& m = x &&& m ||| x &&& ~~~m := by rw [h, BitVec.or_zero]
    _ = x &&& (m ||| ~~~m) := BitVec.and_or_distrib_left.symm
    _ = x := by rw [BitVec.or_not_self, BitVec.and_allOnes]

theorem wellFormed_sendNibble {n8 rs : Byte} (h : WellFormed (.sendNibble n8 rs)) :
    n8 &&& 0xF0#8 = n8 ∧ rs &&& 0x01#8 = rs := by
  simp only [WellFormed, Instr.illFormed?] at h
  split at h
  · cases h
  split at h
  · cases h
  · next hn8 hrs => exact ⟨and_mask_eq_self (not_not.1 hn8), and_mask_eq_self (not_not.1 hrs)⟩

theorem decode_nibblePattern (n8 rs : Byte) :
    decode .sendNibble (n8 &&& 0xF0#8 ||| rs &&& 0x01#8).toNat = .ok (.sendNibble (n8 &&& 0xF0#8) (rs &&& 0x01#8)) := by
  rw [decode_sendNibble (by simp)]
  simp [BitVec.and_or_distrib_right, BitVec.and_assoc]

/-! ## The round trip, and words that are rejected -/

/-- Settles O2, by cases on the instruction: each operand is read back from its field of the word, and the rows without
operands are read off the decoder. -/
theorem decodeEncodeRoundTrip : Obligations.DecodeEncodeRoundTrip := by
  intro i hwf
  cases i with
  | wcmd data | wchr data | line1 data | line2 data => simp [encode, decode_req, decodeReq]
  | rsv op data =>
    have hop : (reqOp (reqWord op data)).getLsbD 2 = true := by rw [reqOp_reqWord, wellFormed_rsv.1 hwf]
    rw [encode, decode_req, decodeReq_reserved hop, reqOp_reqWord, reqData_reqWord]
  | expWrite v => exact decode_expWrite v
  | sendNibble n8 rs =>
    obtain ⟨hn8, hrs⟩ := wellFormed_sendNibble hwf
    exact (decode_nibblePattern n8 rs).trans (by rw [hn8, hrs])
  | sendByte value rs => exact decode_sendByte value rs
  | sendCommand value => exact (decode_commandWord value).2
  | sendCharacter value => exact (decode_dataWord value).2
  | irDisplayControl cb => rw [encode, displayControlWord_toNat, decode_displayControlWord]
  | irCommand d => exact (decode_commandWord d).1
  | irData d => exact (decode_dataWord d).1
  | expStrobe db bt rs => exact decode_payloadWord db bt 1#1 rs
  | expSettleRelease db bt rs => exact decode_payloadWord db bt 0#1 rs
  | expBacklightOnly bt => exact decode_backlightPayload bt
  | delay | blWrite | initS1 | initS2 | initS3 | initS4 | initS5 | initS6 | initS7 | irClear | irHome | irEntryMode
  | irCursorRight | irFunctionSet | irForceNibble => rfl

/-- Settles O1: each word is read off the decoder. -/
theorem specWordsDecode : Obligations.SpecWordsDecode :=
  ⟨rfl, rfl, rfl, rfl, rfl, rfl, rfl, rfl, rfl, rfl, rfl, rfl, rfl, rfl⟩

/-- Settles O4: R/W is looked at before the other bits of a payload, and the width before the fields of a request. -/
theorem malformedWordsRejected : Obligations.MalformedWordsRejected := by
  refine ⟨fun b hrw => ?_, fun w hw => decode_tooWide rfl hw, rfl, rfl, rfl⟩
  rw [decode_exp, decodePayload, if_pos hrw]

/-! ## Response words -/

@[simp] theorem responseWord_kind (r : Response) : (responseWord r).extractLsb' 5 1 = kindCode r.kind := by
  apply BitVec.eq_of_getLsbD_eq
  intro i hi
  obtain rfl : i = 0 := by omega
  simp [responseWord]

@[simp] theorem responseWord_status (r : Response) : (responseWord r).extractLsb' 3 2 = statusCode r.status := by
  apply BitVec.eq_of_getLsbD_eq
  intro i hi
  have h : i = 0 ∨ i = 1 := by omega
  rcases h with rfl | rfl <;> simp [responseWord]

@[simp] theorem responseWord_info (r : Response) : (responseWord r).extractLsb' 0 3 = r.info := by
  apply BitVec.eq_of_getLsbD_eq
  intro i hi
  have h : i = 0 ∨ i = 1 ∨ i = 2 := by omega
  rcases h with rfl | rfl | rfl <;> simp [responseWord]

/-- Settles O6: the three fields do not overlap, so each is read back, and the codes are read off their tables. -/
theorem responseWordFields : Obligations.ResponseWordFields :=
  ⟨fun r => ⟨responseWord_kind r, responseWord_status r, responseWord_info r⟩, rfl, rfl, rfl, rfl, rfl, rfl⟩

/-! ## The rows of controller words and payloads -/

theorem carryWord_serves {rs d : Byte} {s : State}
    (h : PortsServe (wordPulses s.cfg d s.bl (rs.extractLsb' 0 1)) s) :
    carryWord rs d s = .next (afterScript (wordPulses s.cfg d s.bl (rs.extractLsb' 0 1)) s) := by
  rw [carryWord, byteScript_eq]
  exact runScript_serves h

/-- Settles O21: every row carries its word of R87, with the RS operand of a command or of a character. -/
theorem controllerWordsCarried : Obligations.ControllerWordsCarried := by
  have hcommand : ∀ (s : State) (d : Byte), PortsServe (wordPulses s.cfg d s.bl 0#1) s →
      carryWord rsCommand d s = .next (afterScript (wordPulses s.cfg d s.bl 0#1) s) :=
    fun _ _ => carryWord_serves (rs := rsCommand)
  have hcharacter : ∀ (s : State) (d : Byte), PortsServe (wordPulses s.cfg d s.bl 1#1) s →
      carryWord rsCharacter d s = .next (afterScript (wordPulses s.cfg d s.bl 1#1) s) :=
    fun _ _ => carryWord_serves (rs := rsCharacter)
  exact ⟨(hcommand · cmdClear), (hcommand · cmdHome), (hcommand · cmdEntryMode),
    fun s cb => hcommand s (displayControlWord cb), (hcommand · cmdCursorRight), (hcommand · cmdFunctionSet),
    hcommand, hcharacter⟩

/-- A payload answered OK is on the pins and in the trace, and nothing else changes but the answer used. -/
theorem issuePayload_ok {v : Byte} {s : State} (h : s.transport.head = .ok) :
    issuePayload v s = .next { s with
      exp := v
      trace := s.trace ++ [.w s.cfg.expanderAddr7 v .ok]
      transport := s.transport.tail } :=
  runScript_serves (sc := [.w v]) ⟨⟨h, trivial⟩, trivial⟩

/-- Settles O23: each row issues the payload of its fields. -/
theorem payloadsIssued : Obligations.PayloadsIssued := fun _ _ _ _ h =>
  ⟨issuePayload_ok h, issuePayload_ok h, issuePayload_ok h⟩

end Sys2Proof.Machine

/-! PROOFS. Family 40_encoder.md: what each primitive does when its ports serve it and when one of its writes fails, and the
sequencer that runs a script action by action. -/
namespace Sys2Proof.Machine

/-! ## The failure path of the enclosing operation -/

@[simp] theorem busFailure_exp (s : State) : (busFailure s).exp = s.exp := by
  rcases busFailure_cases s with ⟨-, h⟩ | ⟨-, -, h⟩ | ⟨-, -, h⟩ <;> simp [h]

@[simp] theorem busFailure_bl (s : State) : (busFailure s).bl = s.bl := by
  rcases busFailure_cases s with ⟨-, h⟩ | ⟨-, -, h⟩ | ⟨-, -, h⟩ <;> simp [h]

@[simp] theorem busFailure_seq (s : State) : (busFailure s).seq = [] := by
  rcases busFailure_cases s with ⟨-, h⟩ | ⟨-, -, h⟩ | ⟨-, -, h⟩ <;> simp [h]

/-- What goes out before the failure response does not depend on what is left of `seq`. -/
theorem beforeFailure_withSeq (s : State) (q : List Instr) :
    beforeFailure { s with seq := q } = { beforeFailure s with seq := q } := by
  cases hhost : s.host with
  | nil => simp only [beforeFailure, hhost]
  | cons move later =>
    cases move with
    | idle => simp only [beforeFailure, hhost]
    | reset => simp only [beforeFailure, hhost]
    | request w =>
      by_cases hb : s.busy = true
      · simp only [beforeFailure, hhost, if_pos hb]
      · cases hr : Config.initResponseFirst s.draws <;> simp [beforeFailure, hhost, hb, hr, respond, emit]

/-- What is left of `seq` at a failed write does not matter: the failure path drops it. -/
theorem busFailure_withSeq (s : State) (q : List Instr) : busFailure s = busFailure { s with seq := q } := by
  simp only [busFailure, initFailure, beforeFailure_withSeq]
  rfl

/-- The failure path reports a failed write as 41_init_fsm.md R151, 42_runtime_ops.md R171 and 60_exceptions.md R204 say. -/
theorem failureReported_busFailure {s u : State} {events : List Event} (h : SameBlock s u)
    (htrace : u.trace = s.trace ++ events) : FailureReported s (busFailure u) events := by
  unfold FailureReported failureEvents
  rw [← h.phase, ← h.busy, ← h.host, ← h.stage]
  rcases busFailure_cases u with ⟨hp, hu⟩ | ⟨hp, hb, hu⟩ | ⟨hp, hb, hu⟩ <;> rw [hu]
  · rw [if_pos hp]
    rcases initFailure_responses u with ⟨hhost, ht⟩ | ⟨w, later, hb, hw, hhost, ht⟩
    · exact .inl ⟨hhost, by rw [ht, htrace]; rfl⟩
    · exact .inr ⟨w, later, hp, hb, hw, hhost, by simp [ht, htrace, answerOutsideReady, requestDone, initBusFail]⟩
  · exact .inl ⟨rfl, by simp [hp, hb, htrace, requestDone]⟩
  · exact .inl ⟨rfl, by simp [hp, hb, htrace]⟩

/-! ## The script each primitive runs, from the bit map of 20_memory.md R55 -/

theorem exec_sendNibble (n8 rs : Byte) (s : State) :
    exec (.sendNibble n8 rs) s =
      runScript (nibblePulse s.cfg (n8.extractLsb' 4 4) s.bl (rs.extractLsb' 0 1)) s :=
  congrArg (runScript · s) (nibScript_eq s.cfg s.bl n8 rs)

theorem carryWord_eq (rs d : Byte) (s : State) :
    carryWord rs d s = runScript (wordPulses s.cfg d s.bl (rs.extractLsb' 0 1)) s :=
  congrArg (runScript · s) (byteScript_eq s.cfg s.bl d rs)

theorem exec_sendByte (value rs : Byte) (s : State) :
    exec (.sendByte value rs) s = runScript (wordPulses s.cfg value s.bl (rs.extractLsb' 0 1)) s :=
  carryWord_eq rs value s

theorem exec_sendCommand (value : Byte) (s : State) :
    exec (.sendCommand value) s = runScript (wordPulses s.cfg value s.bl 0#1) s :=
  carryWord_eq rsCommand value s

theorem exec_sendCharacter (value : Byte) (s : State) :
    exec (.sendCharacter value) s = runScript (wordPulses s.cfg value s.bl 1#1) s :=
  carryWord_eq rsCharacter value s

theorem exec_blWrite (s : State) : exec .blWrite s = runScript [.w (payloadWord 0#4 s.bl 0#1 0#1)] s :=
  congrArg (fun v => runScript [.w v] s) (backlightBit_eq s.bl)

theorem exec_irForceNibble (s : State) :
    exec .irForceNibble s = runScript (nibblePulse s.cfg s.cfg.forceNibble s.bl 0#1) s := by
  have h := exec_sendNibble (nibbleInPlace s.cfg.forceNibble) rsCommand s
  rwa [nibbleInPlace_data, rsCommand_bit] at h

/-! ## Primitives whose ports serve them -/

/-- Settles O16: an EXP_WRITE is a script of one write. -/
theorem expanderWriteAcknowledged : Obligations.ExpanderWriteAcknowledged :=
  fun _ _ h => issuePayload_ok h

/-- Settles O17: a DELAY is a script of one delay, and a delay of 0 is no event. -/
theorem delayElapses : Obligations.DelayElapses := by
  refine ⟨fun _ => rfl, fun s t ht h => ?_⟩
  have hd : exec (.delay t) s = .next (afterScript [.d t] s) :=
    runScript_serves ⟨trivial, by simpa [scriptWaits, ht] using h⟩
  simpa [afterScript, lastWrite, scriptEvents, scriptWrites, scriptWaits, ht] using hd

/-- Settles O18: a BL_WRITE issues the payload that holds `bl` alone. -/
theorem backlightWriteRuns : Obligations.BacklightWriteRuns :=
  fun s h => (exec_blWrite s).trans (issuePayload_ok h)

/-- Settles O19: SEND_NIBBLE runs one nibble transfer to its end. -/
theorem nibbleTransferRuns : Obligations.NibbleTransferRuns :=
  fun s n8 rs h => (exec_sendNibble n8 rs s).trans (runScript_serves h)

/-- Settles O20: the three byte primitives run the two nibble transfers of a word to their end. -/
theorem byteTransferRuns : Obligations.ByteTransferRuns :=
  ⟨fun s value rs h => (exec_sendByte value rs s).trans (runScript_serves h),
    fun s value h => (exec_sendCommand value s).trans (runScript_serves h),
    fun s value h => (exec_sendCharacter value s).trans (runScript_serves h)⟩

theorem registerSelect_masked (rs : Byte) : (rs &&& 0x01#8).extractLsb' 0 1 = rs.extractLsb' 0 1 := by
  revert rs
  decide

/-- Settles O24: the transfer is made of bits 7:4 and bit 0, and the masks keep these. -/
theorem nibbleOperandsMasked : Obligations.NibbleOperandsMasked := by
  intro s n8 rs
  rw [exec_sendNibble, exec_sendNibble, highNibble_data, registerSelect_masked]

/-! ## The writes of the transfers -/

/-- The three writes of a nibble transfer, as 40_encoder.md R118 orders them. -/
theorem nibScript_writes (p : Params) (bl : Bit) (n8 rs : Byte) :
    scriptWrites (nibScript p bl n8 rs) =
      [settlePayload bl n8 rs, settlePayload bl n8 rs ||| 0x04#8, settlePayload bl n8 rs] := by
  simp [nibScript, scriptWrites, strobePayload]

theorem settlePayload_enable (bl : Bit) (n8 rs : Byte) : (settlePayload bl n8 rs).getLsbD 2 = false := by
  simp [settlePayload_eq]

theorem settlePayload_data (bl : Bit) (n8 rs : Byte) :
    (settlePayload bl n8 rs).extractLsb' 4 4 = n8.extractLsb' 4 4 := by
  rw [settlePayload_eq, payloadWord_data]

theorem run_ok_trace {sc : Script} {s t : State} (h : run sc s = .ok t) :
    t.trace = s.trace ++ scriptEvents s.cfg.expanderAddr7 sc := by
  rw [runFrom_ok h]
  rfl

/-- Settles O25: the writes of a nibble transfer are three, and those of a byte transfer are its two nibbles'. -/
theorem transfersCountedAndOrdered : Obligations.TransfersCountedAndOrdered := by
  refine ⟨fun s t n8 rs h => ⟨run_ok_trace h, _, settlePayload_enable _ _ _, nibScript_writes _ _ _ _⟩,
    fun s t value rs h => ⟨run_ok_trace h, settlePayload s.bl (value &&& 0xF0#8) rs,
      settlePayload s.bl ((value <<< 4) &&& 0xF0#8) rs, settlePayload_enable _ _ _, settlePayload_enable _ _ _,
      ?_, ?_, ?_⟩⟩
  · rw [settlePayload_data, highNibble_data]
  · rw [settlePayload_data, lowNibble_data]
  · rw [byteScript, scriptWrites_append, nibScript_writes, nibScript_writes]
    rfl

/-! ## The backlight bit -/

theorem runScript_next_bl {sc : Script} {s t : State} (h : runScript sc s = .next t) : t.bl = s.bl := by
  rcases runScript_next h with rfl | ⟨before, v, -, -, rfl⟩
  · exact (sameBlock_afterScript sc s).bl
  · rw [busFailure_bl, (sameBlock_afterFailedWrite before v s).bl]

theorem mem_instrs_of_mem_scriptWrites {v : Byte} {sc : Script} (h : v ∈ scriptWrites sc) :
    Instr.expWrite v ∈ sc.instrs := by
  rw [← seqWrites_instrs, seqWrites, List.mem_filterMap] at h
  obtain ⟨i, hi, hv⟩ := h
  cases i <;> cases hv
  exact hi

/-- A script the block can hold keeps `bl` and carries it in bit 3 of all its writes, a failed one included. -/
theorem runScript_next_backlight {sc : Script} {s t : State} (hsc : ScriptOk s.bl sc) (h : runScript sc s = .next t) :
    t.bl = s.bl ∧ ∃ new, t.trace = s.trace ++ new ∧
      ∀ addr v ack, Event.w addr v ack ∈ new → v.extractLsb' 3 1 = s.bl := by
  obtain ⟨new, htrace, hnew⟩ := runScript_next_adds h
  refine ⟨runScript_next_bl h, new, htrace, fun addr v ack he => ?_⟩
  obtain ⟨-, hv⟩ := hnew _ he addr v ack rfl
  exact (hsc.items.1 _ (mem_instrs_of_mem_scriptWrites hv)).2

/-- Settles O26: each primitive runs a script that the block can hold. -/
theorem primitivesKeepBacklight : Obligations.PrimitivesKeepBacklight := by
  refine ⟨fun s t n8 value rs h => ?_, fun s t v d h => ?_⟩
  · rw [exec_sendNibble, exec_sendByte, exec_sendCommand, exec_sendCharacter, exec_blWrite] at h
    rcases h with h | h | h | h | h
    · exact runScript_next_backlight .pulse h
    · exact runScript_next_backlight .word h
    · exact runScript_next_backlight .word h
    · exact runScript_next_backlight .word h
    · exact runScript_next_backlight .backlight h
  · rcases h with h | h
    · exact runScript_next_bl (sc := [.w v]) h
    · exact runScript_next_bl (sc := [.d d]) h

/-! ## A write that fails -/

/-- An instruction that runs a script stops at the failed write, and the failure path follows (40_encoder.md R112). -/
theorem runScript_fails {sc : Script} {s : State} {n : Nat} (hn : n < (scriptWrites sc).length)
    (hok : s.transport.Gives .ok n) (hfail : (s.transport.drop n).head = .fail)
    (hd : s.delays.Gives .elapsed (scriptWaits sc)) :
    ∃ before v after, sc = before ++ .w v :: after ∧ (scriptWrites before).length = n ∧
      runScript sc s = .next (busFailure (afterFailedWrite before v s)) := by
  obtain ⟨before, v, after, hsc, hlen, hrun⟩ := runFrom_fails 0 n sc s hn hok hfail hd
  exact ⟨before, v, after, hsc, hlen, by rw [runScript, run, hrun, finish]⟩

theorem afterFailedWrite_exp (before : Script) (v : Byte) (s : State) :
    (afterFailedWrite before v s).exp = v ∨ (afterFailedWrite before v s).exp = lastWrite s.exp before := by
  unfold afterFailedWrite
  split
  · exact .inl rfl
  · exact .inr rfl

/-- Settles O27: the failure path adds responses only, leaves the pins and `bl`, and empties `seq` (outside any operation
too, log 16). -/
theorem failedByteTransferStops : Obligations.FailedByteTransferStops := by
  intro s value rs n hn hok hfail hd
  rw [← wordPulses_writes_length s.cfg value s.bl (rs.extractLsb' 0 1)] at hn
  obtain ⟨before, v, after, hsc, hlen, hrun⟩ := runScript_fails hn hok hfail hd
  obtain ⟨answers, htrace, hanswers⟩ := traceAdds_busFailure (afterFailedWrite before v s)
  refine ⟨before, after, v, _, answers, hsc, hlen, (exec_sendByte value rs s).trans hrun, htrace, hanswers, ?_,
    busFailure_seq _, busFailure_bl _⟩
  rw [busFailure_exp]
  exact afterFailedWrite_exp before v s

/-- The registers a failed write leaves (41_init_fsm.md R151, 42_runtime_ops.md R171). -/
theorem busFailure_fields {s u : State} (h : SameBlock s u) :
    (busFailure u).phase = (if s.phase = .init then .failed else s.phase) ∧
    (busFailure u).failStage = (if s.phase = .init then s.stage else s.failStage) ∧
    (busFailure u).stage = (if s.phase = .init then 0#3 else s.stage) ∧
    (busFailure u).busy = (if s.phase = .init then s.busy else false) := by
  rw [← h.phase, ← h.stage, ← h.failStage, ← h.busy]
  by_cases hp : u.phase = .init
  · have hr := busFailure_registers_init hp
    simp only [if_pos hp]
    exact ⟨congrArg Registers.phase hr, congrArg Registers.failStage hr, congrArg Registers.stage hr,
      congrArg Registers.busy hr⟩
  · have hr := busFailure_registers_outsideInit hp
    simp only [if_neg hp]
    exact ⟨congrArg Registers.phase hr, congrArg Registers.failStage hr, congrArg Registers.stage hr,
      congrArg Registers.busy hr⟩

/-- Whatever script an instruction runs, it stops at whichever write of it fails. -/
theorem stopsAtFailedWrite_of_runScript {i : Instr} {sc : Script} {s : State} (hi : exec i s = runScript sc s) :
    StopsAtFailedWrite i sc s := by
  intro n hn hok hfail hd
  obtain ⟨before, v, after, hsc, hlen, hrun⟩ := runScript_fails hn hok hfail hd
  have hsame := sameBlock_afterFailedWrite before v s
  refine ⟨before, after, v, _, hsc, hlen, hi.trans hrun,
    failureReported_busFailure hsame (List.append_assoc _ _ _), ?_, busFailure_seq _, busFailure_bl _, busFailure_cfg _,
    busFailure_fields hsame⟩
  rw [busFailure_exp]
  exact afterFailedWrite_exp before v s

/-- Settles O59: each of these instructions runs its script. -/
theorem failedTransfersStop : Obligations.FailedTransfersStop := by
  intro s v n8 rs cb db bt r
  have hpayload : ∀ {i : Instr} {b : Byte}, exec i s = issuePayload b s → StopsAtFailedWrite i [.w b] s :=
    fun h => stopsAtFailedWrite_of_runScript h
  have hcommand : ∀ {i : Instr} {d : Byte}, exec i s = carryWord rsCommand d s →
      StopsAtFailedWrite i (wordPulses s.cfg d s.bl 0#1) s :=
    fun h => stopsAtFailedWrite_of_runScript (h.trans (carryWord_eq _ _ s))
  have hcharacter : ∀ {i : Instr} {d : Byte}, exec i s = carryWord rsCharacter d s →
      StopsAtFailedWrite i (wordPulses s.cfg d s.bl 1#1) s :=
    fun h => stopsAtFailedWrite_of_runScript (h.trans (carryWord_eq _ _ s))
  exact ⟨hpayload rfl, hpayload (exec_blWrite s), stopsAtFailedWrite_of_runScript (exec_sendNibble n8 rs s),
    stopsAtFailedWrite_of_runScript (exec_sendByte v rs s), hcommand rfl, hcharacter rfl,
    hcommand rfl, hcommand rfl, hcommand rfl, hcommand rfl, hcommand rfl, hcommand rfl, hcommand rfl, hcharacter rfl,
    stopsAtFailedWrite_of_runScript (exec_irForceNibble s), hpayload rfl, hpayload rfl, hpayload rfl⟩

/-! ## The sequencer and `run(script)` -/

/-- What `len` actions of the sequencer in front of `rest`, taken from `s`, do when `run(script)` ends as given: the same
state, the failure path applied to it, or the same fault. -/
def SequencerEnds (rest : List Instr) (len : Nat) (s : State) : RunResult → Prop
  | .ok u => Host.Core.run Sys2Proof.core len s = .next { u with seq := rest }
  | .busFail _ u => ∃ n, n ≤ len ∧ Host.Core.run Sys2Proof.core n s = .next (busFailure u)
  | .stuck f => ∃ n, n ≤ len ∧ Host.Core.run Sys2Proof.core n s = .fault f

theorem core_run_succ {s t : State} (h : step s = .next t) (n : Nat) :
    Host.Core.run Sys2Proof.core (n + 1) s = Host.Core.run Sys2Proof.core n t := by
  rw [Nat.add_comm, core_run_add (core_run_one h)]

theorem core_run_one_fault {s : State} {f : Fault} (h : step s = .fault f) :
    Host.Core.run Sys2Proof.core 1 s = .fault f := by
  have hs : Sys2Proof.core.step s = .fault f := h
  simp only [Host.Core.run, hs]

/-- One more action in front. -/
theorem SequencerEnds.of_step {rest : List Instr} {len : Nat} {s t : State} {r : RunResult} (h : step s = .next t)
    (ht : SequencerEnds rest len t r) : SequencerEnds rest (len + 1) s r := by
  cases r with
  | ok u => exact (core_run_succ h len).trans ht
  | busFail k u =>
    obtain ⟨n, hn, hrun⟩ := ht
    exact ⟨n + 1, Nat.succ_le_succ hn, (core_run_succ h n).trans hrun⟩
  | stuck f =>
    obtain ⟨n, hn, hrun⟩ := ht
    exact ⟨n + 1, Nat.succ_le_succ hn, (core_run_succ h n).trans hrun⟩

/-- With a silent host a step performs the action at the head of `seq` as a script of its own (10_state.md R27). -/
theorem step_scriptHead {s : State} (hlegal : LegalStage s) (hhost : s.host = []) (a : ScriptAction) (q : List Instr) :
    step { s with seq := a.instr :: q } = runScript [a] { s with seq := q } := by
  have hstep := stepRunsScriptHead { s with seq := a.instr :: q } [] a.instr q hlegal (.inl ⟨hhost, rfl⟩) rfl
  have hs : ({ s with host := [], seq := q } : State) = { s with seq := q } := by rw [← hhost]
  rw [hstep, hs]
  cases a <;> rfl

theorem afterScript_delay_zero (s : State) : afterScript [.d 0] s = s := by
  simp [afterScript, lastWrite, scriptEvents, scriptWrites, scriptWaits]

/-- The first action of a script, in the run and as a script of its own with any `q` in `seq`: both go on from the state it
leaves, both fail at its write, or both stick at its port. -/
theorem firstAction_cases (k : Nat) (a : ScriptAction) (sc : Script) (s : State) (q : List Instr) :
    (∃ k', runFrom k (a :: sc) s = runFrom k' sc (afterScript [a] s) ∧
      runScript [a] { s with seq := q } = .next { afterScript [a] s with seq := q }) ∨
    (∃ k' u, runFrom k (a :: sc) s = .busFail k' u ∧ runScript [a] { s with seq := q } = .next (busFailure u)) ∨
    (∃ f, runFrom k (a :: sc) s = .stuck f ∧ runScript [a] { s with seq := q } = .fault f) := by
  cases a with
  | w v =>
    cases hv : s.transport.head with
    | ok => exact .inl ⟨k + 1, by rw [runFrom, expWrite_ok hv], runScript_serves ⟨⟨hv, trivial⟩, trivial⟩⟩
    | fail =>
      refine .inr (.inl ⟨k + 1, _, by rw [runFrom, expWrite_fail hv], ?_⟩)
      rw [runScript, run, runFrom, expWrite_fail (s := { s with seq := q }) hv]
      exact congrArg Host.Outcome.next (Eq.symm (busFailure_withSeq _ q))
    | silent =>
      refine .inr (.inr ⟨.transportSilent, by rw [runFrom, expWrite_silent hv], ?_⟩)
      rw [runScript, run, runFrom, expWrite_silent (s := { s with seq := q }) hv, finish]
  | d t =>
    by_cases ht : t = 0
    · subst ht
      exact .inl ⟨k, by rw [runFrom, delayFor_zero, afterScript_delay_zero], runScript_serves ⟨trivial, trivial⟩⟩
    · cases hd : s.delays.head with
      | elapsed =>
        refine .inl ⟨k, by rw [runFrom, delayFor_elapsed hd], runScript_serves ⟨trivial, ?_⟩⟩
        simpa [scriptWaits, ht] using hd
      | never =>
        refine .inr (.inr ⟨.delayNeverEnds, by rw [runFrom, delayFor_never ht hd], ?_⟩)
        rw [runScript, run, runFrom, delayFor_never (s := { s with seq := q }) ht hd, finish]

/-- The sequencer follows `run(script)`, by induction on the script: each action is one step, and the next action finds the
state that the action leaves. `run` does not touch `seq`, so the state it speaks of may hold any. -/
theorem sequencerEnds_runFrom (rest : List Instr) (sc : Script) (k : Nat) (s : State) (hlegal : LegalStage s)
    (hhost : s.host = []) :
    SequencerEnds rest sc.length { s with seq := sc.instrs ++ rest } (runFrom k sc s) := by
  induction sc generalizing k s with
  | nil => rfl
  | cons a sc ih =>
    have hstep := step_scriptHead hlegal hhost a (Script.instrs sc ++ rest)
    rcases firstAction_cases k a sc s (Script.instrs sc ++ rest) with
      ⟨k', hrun, hscript⟩ | ⟨k', u, hrun, hscript⟩ | ⟨f, hrun, hscript⟩ <;> rw [hrun]
    · exact .of_step (hstep.trans hscript) (ih k' (afterScript [a] s) hlegal hhost)
    · exact ⟨1, Nat.succ_le_succ (Nat.zero_le _), core_run_one (hstep.trans hscript)⟩
    · exact ⟨1, Nat.succ_le_succ (Nat.zero_le _), core_run_one_fault (hstep.trans hscript)⟩

/-- Settles O50: the state holds the script in `seq` itself, and the three ends of `run` are those of `SequencerEnds`. -/
theorem sequencerRunsScript : Obligations.SequencerRunsScript := by
  intro sc s rest hlegal hhost hseq
  have hends := sequencerEnds_runFrom rest sc 0 s hlegal hhost
  rw [← hseq] at hends
  refine ⟨fun u hu => ?_, fun k u hu => ?_, fun f hf => ?_⟩
  · rwa [← run, hu] at hends
  · rwa [← run, hu] at hends
  · rwa [← run, hf] at hends

end Sys2Proof.Machine

/-! PROOFS. Family 41_init_fsm.md: the stages one by one, requests and failures during an initialization, and whole
initializations, served and failed. -/
namespace Sys2Proof.Machine

/-- Settles O22: the row runs one nibble transfer to its end. -/
theorem forceNibbleSent : Obligations.ForceNibbleSent :=
  fun s h => (exec_irForceNibble s).trans (runScript_serves h)

/-! ## Entering a stage, and the end of its script -/

theorem exec_stage_inInit {n : StageNum} {i : Instr} {s : State} (hn : decodeStage n = some i)
    (hp : s.phase = .init) : exec i s = .next (stageEntered n s) := by
  rw [exec_stage hn, enterStage, if_pos hp]
  rfl

/-- Stage 6 writes the backlight bit alone, and waits (41_init_fsm.md R146). -/
theorem stageScript_six (p : Params) :
    Script.instrs (stageScript p 1#1 6#3) = [.expWrite 0x08#8, .delay 5] := rfl

/-- Settles O28: in INIT each of the seven instructions enters its stage. -/
theorem stagesEntered : Obligations.StagesEntered := by
  intro s hp
  exact ⟨exec_stage_inInit (n := 1#3) rfl hp, exec_stage_inInit (n := 2#3) rfl hp,
    exec_stage_inInit (n := 3#3) rfl hp, exec_stage_inInit (n := 4#3) rfl hp,
    exec_stage_inInit (n := 5#3) rfl hp,
    stageScript_six s.cfg ▸ exec_stage_inInit (n := 6#3) rfl hp,
    exec_stage_inInit (n := 7#3) rfl hp⟩

/-- When a script of stage 1 to 6 is done, the sequencer enters the next stage (41_init_fsm.md R148). -/
theorem sequencerStep_stageDone {s : State} (hp : s.phase = .init) (h0 : s.stage ≠ 0#3) (h7 : s.stage ≠ 7#3)
    (hseq : s.seq = []) : sequencerStep s = .next (stageEntered (s.stage + 1#3) s) := by
  obtain ⟨i, hi⟩ := decodeStage_add_one h0 h7
  simp only [sequencerStep, hseq, scriptEnd, hp, if_neg h7, hi]
  exact exec_stage_inInit hi hp

/-- When the script of stage 7 is done, the initialization is complete (41_init_fsm.md R149). -/
theorem sequencerStep_initEndDue {s : State} (h : InitEndDue s) : sequencerStep s = .next (completeInit s) := by
  obtain ⟨hp, h7, hseq⟩ := h
  simp only [sequencerStep, hseq, scriptEnd, hp, if_pos h7]

/-- Stage 6 is the one that follows stage 5. -/
theorem stage_add_one_eq_six (n : StageNum) : n + 1#3 = 6#3 ↔ n = 5#3 := by
  revert n
  decide

/-- Settles O30: the sequencer enters the next stage, and stage 6 follows stage 5. -/
theorem stageAdvances : Obligations.StageAdvances := by
  intro s later hp h0 h7 hseq hlets
  have hstep : step s = .next (stageEntered (s.stage + 1#3) { s with host := later }) :=
    (hostLets_step (iff_of_true hp h0) hlets).trans (sequencerStep_stageDone hp h0 h7 hseq)
  simpa only [stageEntered, stage_add_one_eq_six] using hstep

/-! ## Presented requests -/

/-- A request presented while `busy` = 0 is decoded and run, but for the one that stands beside the end of INIT
(42_runtime_ops.md R170). -/
theorem step_request {s : State} {w : ReqWord} {later : List HostMove} (hlegal : LegalStage s) (hb : s.busy = false)
    (hhost : s.host = .request w :: later) (hdue : ¬ (InitEndDue s ∧ reqReserved w = false)) :
    step s = exec (decodeReq w) { s with host := later } := by
  simp only [step, machineStep, if_pos hlegal, hhost, requestStep, hb, Bool.false_eq_true, if_false, if_neg hdue]

theorem exec_decodeReq_ready {s : State} {w : ReqWord} {sc : Script} (hp : s.phase = .ready) (hb : s.busy = false)
    (hsc : requestScript s.cfg s.bl w = some sc) : exec (decodeReq w) s = .next (startRequest sc s) := by
  simp [exec_decodeReq, hsc, acceptRequest, hb, hp]

/-- Outside READY a request is answered at once: a reserved op is decided first (42_runtime_ops.md R170). -/
theorem exec_decodeReq_outsideReady {s : State} (w : ReqWord) (hp : s.phase ≠ .ready) (hb : s.busy = false) :
    exec (decodeReq w) s = .next (respond (answerOutsideReady w) s) := by
  rw [exec_decodeReq]
  cases hsc : requestScript s.cfg s.bl w with
  | none =>
    have hr := (requestScript_reserved _ _ _).1 hsc
    simp [acceptReserved, hb, answerOutsideReady, hr]
  | some sc =>
    have hr : reqReserved w = false := by
      rw [← Bool.not_eq_true, ← requestScript_reserved s.cfg s.bl, hsc]
      exact Option.some_ne_none sc
    simp [acceptRequest, hb, hp, answerOutsideReady, hr]

/-- Settles O34: the request is decoded, and outside READY its operation is its answer. -/
theorem requestsLeaveInitializationAlone : Obligations.RequestsLeaveInitializationAlone := by
  intro s w later hlegal hp hb hhost hdue
  exact (step_request hlegal hb hhost hdue).trans (exec_decodeReq_outsideReady w hp hb)

/-- Settles O31: the end of INIT, a request accepted in READY, and the transitions of `phase`. -/
theorem initializationCompletes : Obligations.InitializationCompletes := by
  refine ⟨fun s later hdue hlets => ?_, fun s w later sc hp h0 hb hhost hsc => ?_, fun s t hp hstep => ?_⟩
  · obtain ⟨hp, h7, hseq⟩ := hdue
    have hlegal : LegalStage s := iff_of_true hp (by rw [h7]; decide)
    exact (hostLets_step hlegal hlets).trans (sequencerStep_initEndDue ⟨hp, h7, hseq⟩)
  · have hinit : s.phase ≠ .init := by rw [hp]; decide
    have hlegal : LegalStage s := iff_of_false hinit (not_not_intro h0)
    exact (step_request hlegal hb hhost fun h => hinit h.1.1).trans (exec_decodeReq_ready hp hb hsc)
  · have hinit : s.phase ≠ .init := by rw [hp]; decide
    rcases phaseTransitions s t hstep with h | ⟨h, -⟩ | ⟨h, -⟩ | ⟨-, -, hreset⟩
    · exact .inl (h.trans hp)
    · exact absurd h hinit
    · exact absurd h hinit
    · exact .inr hreset

/-! ## A failed write of a stage -/

theorem runScript_write_fails {v : Byte} {s : State} (h : s.transport.head = .fail) :
    runScript [.w v] s = .next (busFailure (afterFailedWrite [] v s)) := by
  have hwrite : expWrite 1 v s = .busFail 1 (afterFailedWrite [] v s) := by
    rw [expWrite_fail h]
    simp [afterFailedWrite, lastWrite, scriptEvents, scriptWrites]
  simp only [runScript, run, runFrom, hwrite, finish]

/-- Settles O35: the write leaves the state of `afterFailedWrite`, and the failure path of INIT follows. -/
theorem failedWriteEndsInitialization : Obligations.FailedWriteEndsInitialization := by
  intro s v rest later hp h0 hlets hseq hfail
  have hstep : step s = .next (initFailure (afterFailedWrite [] v { s with host := later, seq := rest })) := by
    calc step s = exec (.expWrite v) { s with host := later, seq := rest } :=
          stepRunsScriptHead s later _ rest (iff_of_true hp h0) hlets hseq
      _ = .next (busFailure _) := runScript_write_fails hfail
      _ = .next (initFailure _) := congrArg _ (if_pos hp)
  refine ⟨_, hstep, initFailure_phase _, initFailure_failStage _, initFailure_stage _, initFailure_seq _,
    initFailure_bl _, initFailure_busy _, initFailure_cfg _, ?_, initFailure_transport _, initFailure_delays _, ?_⟩
  · rw [initFailure_exp]
    exact (afterFailedWrite_exp [] v _).symm
  · rcases initFailure_responses (afterFailedWrite [] v { s with host := later, seq := rest }) with
      ⟨hhost, htrace⟩ | ⟨w, rest', hb, hw, hhost, htrace⟩
    · exact .inl ⟨hhost, by rw [htrace]; simp [afterFailedWrite, scriptEvents, afterScript, initBusFail]⟩
    · exact .inr ⟨w, rest', hw, hb, hhost, by
        rw [htrace]; simp [afterFailedWrite, scriptEvents, afterScript, initBusFail, answerOutsideReady, requestDone]⟩

/-! ## Whole initializations

The states at the start and at the end of a stage's script are named once, over a state that gives the ports, the pins and
the trace. Then a whole initialization is an induction on how many stages are left. -/

/-- The backlight bit of a stage: off up to stage 5, on from stage 6 (10_state.md R23). -/
def stageBacklight (n : StageNum) : Bit := if n.toNat ≤ 5 then 0#1 else 1#1

/-- The script that a running initialization gives stage `n`. -/
def initStageScript (p : Params) (n : StageNum) : Script := stageScript p (stageBacklight n) n

/-- The scripts of stage `n` and of the `m` stages after it, in order (41_init_fsm.md R148). -/
def scriptThrough (p : Params) : Nat → StageNum → Script
  | 0, n => initStageScript p n
  | m + 1, n => initStageScript p n ++ scriptThrough p m (n + 1#3)

theorem scriptThrough_all (p : Params) : scriptThrough p 6 1#3 = initScript p := by
  simp only [initScript, List.append_assoc]
  rfl

/-- Some number of steps leads from `s` to `t`. -/
def Reaches (s t : State) : Prop := ∃ n, Host.Core.run Sys2Proof.core n s = .next t

theorem Reaches.trans {s t u : State} (hst : Reaches s t) (htu : Reaches t u) : Reaches s u := by
  obtain ⟨m, hm⟩ := hst
  obtain ⟨n, hn⟩ := htu
  exact ⟨m + n, (core_run_add hm).trans hn⟩

/-- The start of stage `n`. -/
def stageStart (n : StageNum) (s : State) : State :=
  { s with stage := n, bl := stageBacklight n, seq := Script.instrs (initStageScript s.cfg n) }

/-- The end of the script of stage `n`, with the next stage or the completion still due. -/
def stageEnd (n : StageNum) (s : State) : State :=
  { s with stage := n, bl := stageBacklight n, seq := [] }

/-- The end of an initialization (41_init_fsm.md R149). -/
def initialized (s : State) : State :=
  { s with phase := .ready, stage := 0#3, bl := 1#1, seq := [], trace := s.trace ++ [.r initOk] }

/-- The end of an initialization that fails in stage `n` (41_init_fsm.md R151). -/
def failedInStage (n : StageNum) (s : State) : State :=
  failInit { s with stage := n, bl := stageBacklight n }

/-- The start of stage 1, from the fields the statements name. -/
theorem stageStart_one {s : State} (hstage : s.stage = 1#3) (hbl : s.bl = 0#1)
    (hseq : s.seq = Script.instrs (stageScript s.cfg 0#1 1#3)) : stageStart 1#3 s = s := by
  have hstart : stageStart 1#3 s =
      { s with stage := 1#3, bl := 0#1, seq := Script.instrs (stageScript s.cfg 0#1 1#3) } := rfl
  rw [hstart, ← hseq, ← hstage, ← hbl]

theorem step_silent {s : State} (hlegal : LegalStage s) (hhost : s.host = []) : step s = sequencerStep s := by
  simp only [step, machineStep, if_pos hlegal, hhost]

/-- On the way into the next stage `bl` becomes the bit of that stage (41_init_fsm.md R146). -/
theorem stageBacklight_next : ∀ n : StageNum, n ≠ 0#3 → n ≠ 7#3 →
    (if n + 1#3 = 6#3 then 1#1 else stageBacklight n) = stageBacklight (n + 1#3) := by
  decide

/-- The stage after one that is not the last. -/
theorem stage_next {n : StageNum} {m : Nat} (hm : n.toNat + (m + 1) = 7) :
    n ≠ 7#3 ∧ n + 1#3 ≠ 0#3 ∧ (n + 1#3).toNat + m = 7 := by
  bv_omega

section
variable {n : StageNum} {s : State} (hp : s.phase = .init) (hhost : s.host = []) (h0 : n ≠ 0#3)
include hp hhost

/-- The script of stage 7 is done. -/
theorem stageEnd_reaches_initialized : Reaches (stageEnd 7#3 s) (initialized s) := by
  have hlegal : LegalStage (stageEnd 7#3 s) := iff_of_true hp (by decide : (7#3 : StageNum) ≠ 0#3)
  exact ⟨1, core_run_one ((step_silent hlegal hhost).trans (sequencerStep_initEndDue ⟨hp, rfl, rfl⟩))⟩

include h0

/-- The script of stage 1 to 6 is done. -/
theorem stageEnd_reaches_next (h7 : n ≠ 7#3) : Reaches (stageEnd n s) (stageStart (n + 1#3) s) := by
  have hlegal : LegalStage (stageEnd n s) := iff_of_true hp h0
  have hnext : stageEntered (n + 1#3) (stageEnd n s) = stageStart (n + 1#3) s := by
    simp only [stageEntered, stageEnd, stageStart, initStageScript, stageBacklight_next n h0 h7]
  exact ⟨1, core_run_one (hnext ▸ (step_silent hlegal hhost).trans (sequencerStep_stageDone hp h0 h7 rfl))⟩

/-- A stage whose ports serve it runs its script to its end. -/
theorem stageStart_reaches_end (hserve : PortsServe (initStageScript s.cfg n) s) :
    Reaches (stageStart n s) (stageEnd n (afterScript (initStageScript s.cfg n) s)) := by
  obtain ⟨hok, -, -⟩ := sequencerRunsScript (initStageScript s.cfg n) (stageStart n s) [] (iff_of_true hp h0) hhost
    (List.append_nil _).symm
  exact ⟨_, hok _ (runFrom_serves 0 _ (stageStart n s) hserve)⟩

/-- A served stage before the last leads to the start of the next stage (41_init_fsm.md R148). -/
theorem stageStart_reaches_next (h7 : n ≠ 7#3) (hserve : PortsServe (initStageScript s.cfg n) s) :
    Reaches (stageStart n s) (stageStart (n + 1#3) (afterScript (initStageScript s.cfg n) s)) :=
  (stageStart_reaches_end hp hhost h0 hserve).trans
    (stageEnd_reaches_next (s := afterScript (initStageScript s.cfg n) s) hp hhost h0 h7)

/-- A stage whose write number `k` + 1 fails ends the initialization at that write. -/
theorem stageStart_reaches_failed {k : Nat} (hk : k < (scriptWrites (initStageScript s.cfg n)).length)
    (hok : s.transport.Gives .ok k) (hfail : (s.transport.drop k).head = .fail)
    (hd : s.delays.Gives .elapsed (scriptWaits (initStageScript s.cfg n))) :
    ∃ (before : Script) (v : Byte) (after : Script), initStageScript s.cfg n = before ++ .w v :: after ∧
      (scriptWrites before).length = k ∧
      Reaches (stageStart n s) (failedInStage n (afterFailedWrite before v s)) := by
  obtain ⟨before, v, after, hsc, hlen, hrun⟩ := runFrom_fails 0 k _ (stageStart n s) hk hok hfail hd
  obtain ⟨-, hbusFail, -⟩ := sequencerRunsScript (initStageScript s.cfg n) (stageStart n s) [] (iff_of_true hp h0) hhost
    (List.append_nil _).symm
  obtain ⟨steps, -, hsteps⟩ := hbusFail _ _ hrun
  have hpath : busFailure (afterFailedWrite before v (stageStart n s)) = failedInStage n (afterFailedWrite before v s) :=
    (if_pos hp).trans (initFailure_silent (s := afterFailedWrite before v (stageStart n s)) hhost)
  exact ⟨before, v, after, hsc, hlen, steps, hpath ▸ hsteps⟩

end

/-- Served stages follow each other to the end of stage 7, by induction on how many are left: the next stage starts from
what the scripts before it leave. -/
theorem stageStart_reaches_initialized (m : Nat) (n : StageNum) (s : State) (hp : s.phase = .init) (hhost : s.host = [])
    (h0 : n ≠ 0#3) (hm : n.toNat + m = 7) (hserve : PortsServe (scriptThrough s.cfg m n) s) :
    Reaches (stageStart n s) (initialized (afterScript (scriptThrough s.cfg m n) s)) := by
  induction m generalizing n s with
  | zero =>
    obtain rfl : n = 7#3 := BitVec.eq_of_toNat_eq hm
    exact (stageStart_reaches_end hp hhost h0 hserve).trans (stageEnd_reaches_initialized hp hhost)
  | succ m ih =>
    obtain ⟨h7, h0', hm'⟩ := stage_next hm
    obtain ⟨hstage, hlater⟩ := (portsServe_append _ _ s).1 hserve
    rw [scriptThrough, afterScript_append]
    exact (stageStart_reaches_next hp hhost h0 h7 hstage).trans
      (ih (n + 1#3) (afterScript (initStageScript s.cfg n) s) hp hhost h0' hm' hlater)

/-- Settles O51: stage 1 and the six stages after it. -/
theorem initializationRuns : Obligations.InitializationRuns := by
  intro s hp hstage hbl hhost hseq hserve
  have hrun := stageStart_reaches_initialized 6 1#3 s hp hhost (by decide) rfl (by rwa [scriptThrough_all])
  rwa [stageStart_one hstage hbl hseq, scriptThrough_all] at hrun

/-! ## Failed initializations -/

/-- How many writes the script of a stage has (41_init_fsm.md R150). -/
def stageWriteCount (n : StageNum) : Nat :=
  if n = 1#3 then 1 else if n = 2#3 then 9 else if n = 6#3 then 1 else 6

theorem initStageScript_writes_length {n : StageNum} (p : Params) (h0 : n ≠ 0#3) :
    (scriptWrites (initStageScript p n)).length = stageWriteCount n := by
  have hn : n = 1#3 ∨ n = 2#3 ∨ n = 3#3 ∨ n = 4#3 ∨ n = 5#3 ∨ n = 6#3 ∨ n = 7#3 := by
    revert n
    decide
  rcases hn with rfl | rfl | rfl | rfl | rfl | rfl | rfl <;>
    simp [initStageScript, stageScript, stageWriteCount, scriptWrites, nibblePulse_writes, wordPulses_writes_length]

/-- The stage that write number `k` + 1 of stage `n` and the `m` stages after it belongs to. -/
def stageOfWrite : Nat → StageNum → Nat → StageNum
  | 0, n, _ => n
  | m + 1, n, k => if k < stageWriteCount n then n else stageOfWrite m (n + 1#3) (k - stageWriteCount n)

theorem afterFailedWrite_append (a b : Script) (v : Byte) (s : State) :
    afterFailedWrite (a ++ b) v s = afterFailedWrite b v (afterScript a s) := by
  simp only [afterFailedWrite, afterScript, lastWrite_append, scriptEvents_append, scriptWrites_append,
    scriptWaits_append, List.length_append, Feed.drop_add, List.append_assoc]
  rfl

/-- From the start of stage `n`, the initialization ends at the write that fails, by induction on how many stages are left:
the write is one of stage `n`, or the stage is served and the write is a later one. -/
theorem stageStart_reaches_failedInStage (m : Nat) (n : StageNum) (k : Nat) (s : State) (hp : s.phase = .init)
    (hhost : s.host = []) (h0 : n ≠ 0#3) (hm : n.toNat + m = 7)
    (hk : k < (scriptWrites (scriptThrough s.cfg m n)).length) (hok : s.transport.Gives .ok k)
    (hfail : (s.transport.drop k).head = .fail) (hd : s.delays.Gives .elapsed (scriptWaits (scriptThrough s.cfg m n))) :
    ∃ (before : Script) (v : Byte) (after : Script), scriptThrough s.cfg m n = before ++ .w v :: after ∧
      (scriptWrites before).length = k ∧
      Reaches (stageStart n s) (failedInStage (stageOfWrite m n k) (afterFailedWrite before v s)) := by
  induction m generalizing n k s with
  | zero => exact stageStart_reaches_failed hp hhost h0 hk hok hfail hd
  | succ m ih =>
    rw [scriptThrough, scriptWaits_append, Feed.gives_add] at hd
    rw [scriptThrough, scriptWrites_append, List.length_append, initStageScript_writes_length s.cfg h0] at hk
    obtain ⟨hdStage, hdLater⟩ := hd
    have hlen := initStageScript_writes_length s.cfg h0
    by_cases hin : k < stageWriteCount n
    · obtain ⟨before, v, after, hsc, hbefore, hrun⟩ :=
        stageStart_reaches_failed hp hhost h0 (hlen ▸ hin) hok hfail hdStage
      rw [stageOfWrite, if_pos hin]
      exact ⟨before, v, after ++ scriptThrough s.cfg m (n + 1#3), by rw [scriptThrough, hsc]; simp, hbefore, hrun⟩
    · obtain ⟨h7, h0', hm'⟩ := stage_next hm
      obtain ⟨j, rfl⟩ := Nat.exists_eq_add_of_le (Nat.le_of_not_lt hin)
      rw [Feed.gives_add, ← hlen] at hok
      rw [Feed.drop_add, ← hlen] at hfail
      obtain ⟨hokStage, hokLater⟩ := hok
      obtain ⟨before, v, after, hsc, hbefore, hrun⟩ :=
        ih (n + 1#3) j (afterScript (initStageScript s.cfg n) s) hp hhost h0' hm' (Nat.lt_of_add_lt_add_left hk)
          hokLater hfail hdLater
      rw [stageOfWrite, if_neg hin, Nat.add_sub_cancel_left]
      refine ⟨initStageScript s.cfg n ++ before, v, after, ?_, ?_, ?_⟩
      · rw [scriptThrough, List.append_assoc, ← hsc]
        rfl
      · rw [scriptWrites_append, List.length_append, hlen, hbefore]
      · rw [afterFailedWrite_append]
        exact (stageStart_reaches_next hp hhost h0 h7 ⟨hokStage, hdStage⟩).trans hrun

/-- The whole initialization has 35 writes (41_init_fsm.md R150). -/
theorem initScript_writes_length (p : Params) : (scriptWrites (initScript p)).length = 35 := by
  rw [← scriptThrough_all]
  simp [scriptThrough, initStageScript_writes_length, stageWriteCount]

/-- The stage each of the 35 writes belongs to, and its backlight bit (41_init_fsm.md R150). -/
theorem stageOfWrite_table : ∀ k < 35,
    stageOfWrite 6 1#3 k = (if k < 1 then 1#3 else if k < 10 then 2#3 else if k < 16 then 3#3 else if k < 22 then 4#3
      else if k < 28 then 5#3 else if k < 29 then 6#3 else 7#3) ∧
    stageBacklight (stageOfWrite 6 1#3 k) = (if k < 28 then 0#1 else 1#1) := by
  decide

/-- Settles O52: the initialization ends at the failed write, in the stage the write belongs to. -/
theorem failedInitializationEmitsPrefix : Obligations.FailedInitializationEmitsPrefix := by
  intro s k hp hstage hbl hhost hseq hk hok hfail hd
  obtain ⟨before, v, after, hsc, hlen, n, hrun⟩ :=
    stageStart_reaches_failedInStage 6 1#3 k s hp hhost (by decide) rfl
      (by rwa [scriptThrough_all, initScript_writes_length]) hok hfail (by rwa [scriptThrough_all])
  rw [stageStart_one hstage hbl hseq] at hrun
  rw [scriptThrough_all] at hsc
  obtain ⟨hfailStage, hbacklight⟩ := stageOfWrite_table k hk
  exact ⟨n, before, after, v, _, hsc, hlen, hrun, rfl, rfl, rfl, hfailStage, hbacklight,
    afterFailedWrite_exp before v s, List.append_assoc _ _ _⟩

/-! ## The table of the whole initialization (41_init_fsm.md R150) -/

theorem eventWrites_scriptEvents (addr : DevAddr) (sc : Script) :
    eventWrites (scriptEvents addr sc) = scriptWrites sc := by
  induction sc with
  | nil => rfl
  | cons a sc ih =>
    cases a with
    | w v => simp [scriptEvents, eventWrites, scriptWrites, ih]
    | d t => by_cases ht : t = 0 <;> simp [scriptEvents, eventWrites, scriptWrites, ht, ih]

theorem eventDelays_scriptEvents_sum (addr : DevAddr) (sc : Script) :
    (eventDelays (scriptEvents addr sc)).sum = scriptDelay sc := by
  induction sc with
  | nil => rfl
  | cons a sc ih =>
    cases a with
    | w v => simp [scriptEvents, eventDelays, scriptDelay, ih]
    | d t => by_cases ht : t = 0 <;> simp [scriptEvents, eventDelays, scriptDelay, ht, ih]

theorem scriptEvents_nibblePulse {p : Params} (hsetup : p.tSetup = 0) (addr : DevAddr) (db : Nibble) (bt rs : Bit) :
    scriptEvents addr (nibblePulse p db bt rs) =
      pulseEvents addr (payloadWord db bt 0#1 rs) (payloadWord db bt 1#1 rs) := by
  simp [nibblePulse, hsetup, wait, scriptEvents, pulseEvents]

theorem scriptEvents_wordPulses {p : Params} (hsetup : p.tSetup = 0) (addr : DevAddr) (d : Byte) (bt rs : Bit) :
    scriptEvents addr (wordPulses p d bt rs) =
      pulseEvents addr (payloadWord (d.extractLsb' 4 4) bt 0#1 rs) (payloadWord (d.extractLsb' 4 4) bt 1#1 rs) ++
      pulseEvents addr (payloadWord (d.extractLsb' 0 4) bt 0#1 rs) (payloadWord (d.extractLsb' 0 4) bt 1#1 rs) := by
  rw [wordPulses, scriptEvents_append, scriptEvents_nibblePulse hsetup, scriptEvents_nibblePulse hsetup]

theorem wordPulses_writes (p : Params) (d : Byte) (bt rs : Bit) :
    scriptWrites (wordPulses p d bt rs) =
      [payloadWord (d.extractLsb' 4 4) bt 0#1 rs, payloadWord (d.extractLsb' 4 4) bt 1#1 rs,
        payloadWord (d.extractLsb' 4 4) bt 0#1 rs, payloadWord (d.extractLsb' 0 4) bt 0#1 rs,
        payloadWord (d.extractLsb' 0 4) bt 1#1 rs, payloadWord (d.extractLsb' 0 4) bt 0#1 rs] := by
  rw [wordPulses, scriptWrites_append, nibblePulse_writes, nibblePulse_writes]
  rfl

/-- One enable pulse for each nibble: three in stage 2 and two for each of the four words. -/
theorem initScript_enables (p : Params) :
    (scriptWrites (initScript p)).countP (fun v => v.getLsbD 2) = 11 := by
  simp [initScript, stageScript, scriptWrites, nibblePulse_writes, wordPulses_writes]

theorem lastWrite_wait (old : Byte) (t : Nat) : lastWrite old (wait t) = old := by
  unfold wait
  split <;> rfl

/-- The last payload of the whole initialization: the low nibble of the Clear word, with the backlight on. -/
theorem lastWrite_initScript (old : Byte) (p : Params) : lastWrite old (initScript p) = 0x18#8 := by
  simp [initScript, stageScript, wordPulses, nibblePulse, lastWrite, lastWrite_wait, payloadWord]

/-- The arguments at their defaults (00_scope.md R9), with any address. -/
def defaultsAt (a : DevAddr) : Params := ⟨a, 0x2#4, 0x0C#8, 0, 0, 0, 0⟩

theorem initScript_waits (a : DevAddr) : scriptWaits (initScript (defaultsAt a)) = 30 := by
  simp [initScript, stageScript, wait, wordPulses, nibblePulse, scriptWaits, defaultsAt]

theorem initScript_delay (a : DevAddr) : scriptDelay (initScript (defaultsAt a)) = 802 := by
  simp [initScript, stageScript, scriptDelay, nibblePulse_delay, wordPulses_delay, defaultsAt]

/-- Settles O57: the run of `initializationRuns`, with the events of its scripts written out. -/
theorem initializationTable : Obligations.InitializationTable := by
  intro s a hp hstage hbl hhost hseq hcfg hok hd
  change s.cfg = defaultsAt a at hcfg
  have hstart : s.seq = Script.instrs (stageScript s.cfg 0#1 1#3) := by
    rw [hseq, hcfg]
    rfl
  have hserve : PortsServe (initScript s.cfg) s :=
    ⟨by rwa [initScript_writes_length], by rwa [hcfg, initScript_waits]⟩
  obtain ⟨n, hrun⟩ := initializationRuns s hp hstage hbl hhost hstart hserve
  refine ⟨n, _, scriptEvents s.cfg.expanderAddr7 (initScript s.cfg), hrun, rfl, rfl, rfl, rfl,
    lastWrite_initScript s.exp s.cfg, rfl, rfl, rfl, rfl, ?_, ?_, ?_, ?_⟩
  · rw [hcfg]
    simp [initScript, stageScript, scriptEvents, scriptEvents_wordPulses, scriptEvents_nibblePulse, wait, payloadWord,
      defaultsAt]
  · rw [eventWrites_scriptEvents, initScript_writes_length]
  · rw [eventWrites_scriptEvents, initScript_enables]
  · rw [eventDelays_scriptEvents_sum, hcfg, initScript_delay]

end Sys2Proof.Machine

/-! PROOFS. Family 42_runtime_ops.md: how a request is presented, accepted and answered, what it loads into `seq`, and whole
requests, served and failed. -/
namespace Sys2Proof.Machine

/-! ## A request word on the port -/

/-- Settles O8: the port's decoder answers every word, and a presented word is decoded and run. -/
theorem stepRunsPresentedRequest : Obligations.StepRunsPresentedRequest := by
  intro s w later i hlegal hhost hb hdecode hdue
  obtain rfl : decodeReq w = i := Except.ok.inj ((decode_req w).symm.trans hdecode)
  exact step_request hlegal hb hhost hdue

/-! ## A word placed by `withFetchWord` -/

theorem firstDecoding_some {w : Nat} {i : Instr} {fs : List Format} (h : firstDecoding w fs = some i) :
    ∃ f ∈ fs, decode f w = .ok i := by
  induction fs with
  | nil => cases h
  | cons f fs ih =>
    rw [firstDecoding] at h
    cases hf : decode f w with
    | ok j =>
      rw [hf] at h
      cases h
      exact ⟨f, List.mem_cons_self, hf⟩
    | error e =>
      rw [hf] at h
      obtain ⟨g, hg, hdecode⟩ := ih h
      exact ⟨g, List.mem_cons_of_mem f hg, hdecode⟩

theorem decode_ok_fitting {f : Format} {w : Nat} {i : Instr} (h : decode f w = .ok i) : decodeFitting f w = .ok i := by
  unfold decode at h
  repeat' split at h
  · exact h
  · cases h
  · exact h

theorem encode_stage {n : StageNum} {i : Instr} (h : decodeStage n = some i) : (encode i).1 = .initStage := by
  have hall : ∀ n : StageNum, (decodeStage n).all (fun i => (encode i).1 = .initStage) = true := by decide
  simpa [h] using hall n

/-- The request place is the only one at which a request is read, and it reads the word's low 11 bits. -/
theorem decodeFitting_request {f : Format} {w : Nat} {i : Instr} (h : decodeFitting f w = .ok i)
    (hi : (encode i).1 = .req) : i = decodeReq (BitVec.ofNat 11 w) := by
  cases f
  case req => exact (Except.ok.inj h).symm
  case initStage =>
    simp only [decodeFitting] at h
    split at h
    · next hstage =>
      cases h
      simp [encode_stage hstage] at hi
    · cases h
  all_goals
    simp only [decodeFitting, decodeOwnWord, decodePayload] at h
    repeat' split at h
    all_goals (cases h <;> cases hi)

theorem decodeTableWord_request {nbits w : Nat} {i : Instr} (h : decodeTableWord nbits w = some i)
    (hi : (encode i).1 = .req) : i = decodeReq (BitVec.ofNat 11 w) := by
  obtain ⟨f, -, hf⟩ := firstDecoding_some h
  exact decodeFitting_request (decode_ok_fitting hf) hi

theorem placeInstr_request {i : Instr} (h : (encode i).1 = .req) (w : Nat) (s : State) :
    placeInstr i w s = presentRequest (BitVec.ofNat 11 w) s := by
  simp only [placeInstr, h]

theorem placeInstr_internal {i : Instr} (h : (encode i).1 ≠ .req) (w : Nat) (s : State) :
    placeInstr i w s = placeInScript i s := by
  unfold placeInstr
  split
  · contradiction
  · rfl

/-- Settles O10: a placed request stands presented, and a placed internal instruction is the head of `seq`. -/
theorem stepRunsPlacedWord : Obligations.StepRunsPlacedWord := by
  intro s nbits w i hlegal hdue hdecode
  have hplace : s.withFetchWord nbits w = placeInstr i w s := by simp only [State.withFetchWord, hdecode]
  refine ⟨fun hreq => ?_, fun hinternal => ?_⟩
  · rw [hplace, placeInstr_request hreq, decodeTableWord_request hdecode hreq]
    exact step_request (s := presentRequest _ s) hlegal rfl rfl fun h => hdue h.1
  · rw [hplace, placeInstr_internal hinternal]
    exact stepRunsScriptHead (placeInScript i s) s.host i s.seq hlegal (.inr (.inl rfl)) rfl

/-! ## Accepting and answering (42_runtime_ops.md R170) -/

theorem acceptRequest_ready {s : State} (hp : s.phase = .ready) (hb : s.busy = false) (w : ReqWord) (sc : Script) :
    acceptRequest w sc s = .next (startRequest sc s) := by
  simp [acceptRequest, hb, hp]

theorem acceptRequest_outsideReady {s : State} (hp : s.phase ≠ .ready) (hb : s.busy = false) (w : ReqWord) (sc : Script) :
    acceptRequest w sc s = .next (respond (requestDone .notReady) s) := by
  simp [acceptRequest, hb, hp]

theorem acceptReserved_notBusy {s : State} (hb : s.busy = false) (w : ReqWord) :
    acceptReserved w s = .next (respond (requestDone .illegalOp) s) := by
  simp [acceptReserved, hb]

/-- The Return-Home of the cursor requests, with `T_HOME` (42_runtime_ops.md R174). -/
def returnHome (p : Params) (bl : Bit) : Script := wordPulses p 0x02#8 bl 0#1 ++ wait p.tHome

/-- The 40 cursor-right words of LINE2 (42_runtime_ops.md R175). -/
def cursorRights (p : Params) (bl : Bit) : Script := (List.replicate 40 (wordPulses p 0x14#8 bl 0#1)).flatten

theorem exec_wcmd (data : Byte) (s : State) :
    exec (.wcmd data) s = acceptRequest (reqWord 0#3 data) (wordPulses s.cfg data s.bl 0#1) s := by
  rw [exec, execWcmd, byteScript_eq, rsCommand_bit]

theorem exec_wchr (data : Byte) (s : State) :
    exec (.wchr data) s = acceptRequest (reqWord 1#3 data) (wordPulses s.cfg data s.bl 1#1) s := by
  rw [exec, execWchr, byteScript_eq, rsCharacter_bit]

theorem exec_line1 (data : Byte) (s : State) :
    exec (.line1 data) s = acceptRequest (reqWord 2#3 data) (returnHome s.cfg s.bl) s := by
  rw [exec, execLine1, line1Script_eq, returnHome]

theorem exec_line2 (data : Byte) (s : State) :
    exec (.line2 data) s =
      acceptRequest (reqWord 3#3 data) (returnHome s.cfg s.bl ++ cursorRights s.cfg s.bl) s := by
  rw [exec, execLine2, line2Script_eq, returnHome, cursorRights]

/-- Settles O11: in READY and free, both are accepted with their byte's two nibble transfers. -/
theorem commandAndCharacterAccepted : Obligations.CommandAndCharacterAccepted := fun s data hp hb =>
  ⟨(exec_wcmd data s).trans (acceptRequest_ready hp hb _ _), (exec_wchr data s).trans (acceptRequest_ready hp hb _ _)⟩

/-- Settles O12: in READY and free, both are accepted with their scripts. -/
theorem cursorRequestsAccepted : Obligations.CursorRequestsAccepted := fun s data hp hb =>
  ⟨(exec_line1 data s).trans (acceptRequest_ready hp hb _ _), (exec_line2 data s).trans (acceptRequest_ready hp hb _ _)⟩

/-- Settles O14: outside READY all four are answered NOT_READY. -/
theorem requestsOutsideReadyAnswered : Obligations.RequestsOutsideReadyAnswered := fun s data hp hb =>
  ⟨(exec_wcmd data s).trans (acceptRequest_outsideReady hp hb _ _),
    (exec_wchr data s).trans (acceptRequest_outsideReady hp hb _ _),
    (exec_line1 data s).trans (acceptRequest_outsideReady hp hb _ _),
    (exec_line2 data s).trans (acceptRequest_outsideReady hp hb _ _)⟩

/-- The reserved bit of a word is bit 2 of its `op` (30_encoding.md R82). -/
theorem reqOp_reservedBit (w : ReqWord) : (reqOp w).getLsbD 2 = w.getLsbD 10 := by
  simp [reqOp]

/-- Settles O13: a word with bit 10 set decodes as RSV, and RSV is answered at once. -/
theorem reservedRequestAnswered : Obligations.ReservedRequestAnswered := by
  refine ⟨fun w hw => ?_, fun s op data hb => acceptReserved_notBusy hb _⟩
  rw [decode_req, decodeReq_reserved ((reqOp_reservedBit w).trans hw)]
  rfl

theorem exec_decodeReq_reserved {s : State} {w : ReqWord} (hb : s.busy = false) (hw : reqReserved w = true) :
    exec (decodeReq w) s = .next (respond (requestDone .illegalOp) s) := by
  simp only [exec_decodeReq, (requestScript_reserved s.cfg s.bl w).2 hw, acceptReserved_notBusy hb]

/-! ## Waiting while `busy` = 1 -/

theorem exec_decodeReq_busy {s : State} (w : ReqWord) (hb : s.busy = true) :
    exec (decodeReq w) s = .next (keepPresented w s) := by
  rw [exec_decodeReq]
  cases requestScript s.cfg s.bl w with
  | none => exact if_pos hb
  | some sc => exact if_pos hb

theorem busFailure_host_outsideInit {s : State} (hp : s.phase ≠ .init) : (busFailure s).host = s.host := by
  rcases busFailure_cases s with ⟨h, -⟩ | ⟨-, -, h⟩ | ⟨-, -, h⟩
  · exact absurd h hp
  · rw [h, runtimeFailure_host]
  · rw [h]

theorem runScript_next_host {sc : Script} {s t : State} (hp : s.phase ≠ .init) (h : runScript sc s = .next t) :
    t.host = s.host := by
  rcases runScript_next h with rfl | ⟨before, v, -, -, rfl⟩
  · rfl
  · exact busFailure_host_outsideInit (s := afterFailedWrite before v s) hp

/-- What the block holds in `seq` are one-action scripts (00_scope.md R13). -/
theorem exec_seqItem {bl : Bit} {i : Instr} (hi : SeqItemOk bl i) (s : State) :
    ∃ sc, exec i s = runScript sc s := by
  cases i
  case expWrite v => exact ⟨[.w v], rfl⟩
  case delay t => exact ⟨[.d t], rfl⟩
  all_goals cases hi

/-- Outside INIT the sequencer leaves the request port alone. -/
theorem sequencerStep_next_host {s t : State} (hs : BlockInv s) (hp : s.phase ≠ .init)
    (h : sequencerStep s = .next t) : t.host = s.host := by
  rcases sequencerStep_next h with
    ⟨i, rest, hseq, he⟩ | ⟨⟨hinit, -, -⟩, -⟩ | ⟨-, hinit, -, -⟩ | ⟨-, -, -, rfl⟩ | ⟨-, -, -, rfl⟩
  · have hi : SeqItemOk s.bl i := hs.items i (by simp [hseq])
    obtain ⟨sc, hsc⟩ := exec_seqItem hi { s with seq := rest }
    exact runScript_next_host (s := { s with seq := rest }) hp (hsc.symm.trans he)
  · exact absurd hinit hp
  · exact absurd hinit hp
  · exact completeRequest_host s
  · rfl

/-- Settles O15: the meaning puts the word back on the port, and the step is the sequencer's, in READY. -/
theorem requestWaitsWhileBusy : Obligations.RequestWaitsWhileBusy := by
  refine ⟨fun s w hb => exec_decodeReq_busy w hb, fun s t w later hs hb hhost hstep => ?_⟩
  have hinit : s.phase ≠ .init := by rw [hs.busyReady hb]; decide
  have hlets : HostLets s s.host := .inr (.inr ⟨hb, rfl, w, later, hhost⟩)
  exact sequencerStep_next_host hs hinit ((hostLets_step hs.legalStage hlets).symm.trans hstep)

/-! ## What a request loads into `seq` -/

/-- The four requests and their scripts (42_runtime_ops.md R172 to R175). -/
theorem requestScript_cases {p : Params} {bl : Bit} {w : ReqWord} {sc : Script} (h : requestScript p bl w = some sc) :
    (reqOp w = 0#3 ∧ sc = wordPulses p (reqData w) bl 0#1) ∨
    (reqOp w = 1#3 ∧ sc = wordPulses p (reqData w) bl 1#1) ∨
    (reqOp w = 2#3 ∧ sc = returnHome p bl) ∨
    (reqOp w = 3#3 ∧ sc = returnHome p bl ++ cursorRights p bl) := by
  unfold requestScript at h
  repeat' split at h
  all_goals cases h
  · exact .inl ⟨‹_›, rfl⟩
  · exact .inr (.inl ⟨‹_›, rfl⟩)
  · exact .inr (.inr (.inl ⟨‹_›, rfl⟩))
  · exact .inr (.inr (.inr ⟨‹_›, rfl⟩))

/-- In READY and free, a word that is not reserved loads its script. -/
theorem exec_decodeReq_accepts {s : State} {w : ReqWord} (hp : s.phase = .ready) (hb : s.busy = false)
    (hw : reqReserved w = false) :
    ∃ sc, requestScript s.cfg s.bl w = some sc ∧ exec (decodeReq w) s = .next (startRequest sc s) := by
  cases hsc : requestScript s.cfg s.bl w with
  | none => simp [(requestScript_reserved _ _ _).1 hsc] at hw
  | some sc => exact ⟨sc, rfl, exec_decodeReq_ready hp hb hsc⟩

/-- One enable pulse for each nibble. -/
theorem wordPulses_enables (p : Params) (d : Byte) (bt rs : Bit) :
    (scriptWrites (wordPulses p d bt rs)).countP (fun v => v.getLsbD 2) = 2 := by
  simp [wordPulses_writes]

/-- What R179 of 42_runtime_ops.md counts of a script: its writes, its enable pulses, and the sum of its delays. -/
def HasCounts (writes enables delay : Nat) (sc : Script) : Prop :=
  (scriptWrites sc).length = writes ∧ (scriptWrites sc).countP (fun v => v.getLsbD 2) = enables ∧ scriptDelay sc = delay

theorem HasCounts.append {m n e f d c : Nat} {a b : Script} (ha : HasCounts m e d a) (hb : HasCounts n f c b) :
    HasCounts (m + n) (e + f) (d + c) (a ++ b) := by
  obtain ⟨ha1, ha2, ha3⟩ := ha
  obtain ⟨hb1, hb2, hb3⟩ := hb
  refine ⟨?_, ?_, ?_⟩
  · rw [scriptWrites_append, List.length_append, ha1, hb1]
  · rw [scriptWrites_append, List.countP_append, ha2, hb2]
  · rw [scriptDelay_append, ha3, hb3]

theorem wordPulses_counts (p : Params) (d : Byte) (bt rs : Bit) :
    HasCounts 6 2 (4 + 2 * p.tSetup) (wordPulses p d bt rs) :=
  ⟨wordPulses_writes_length p d bt rs, wordPulses_enables p d bt rs, wordPulses_delay p d bt rs⟩

theorem wait_counts (t : Nat) : HasCounts 0 0 t (wait t) :=
  ⟨by rw [scriptWrites_wait]; rfl, by rw [scriptWrites_wait]; rfl, scriptDelay_wait t⟩

theorem returnHome_counts (p : Params) (bl : Bit) : HasCounts 6 2 (4 + 2 * p.tSetup + p.tHome) (returnHome p bl) :=
  (wordPulses_counts p 0x02#8 bl 0#1).append (wait_counts p.tHome)

theorem cursorRights_counts (p : Params) (bl : Bit) :
    HasCounts 240 80 (40 * (4 + 2 * p.tSetup)) (cursorRights p bl) := by
  obtain ⟨hlen, henable, hdelay⟩ :=
    scriptCounts_replicate (fun v => v.getLsbD 2) 40 (wordPulses p 0x14#8 bl 0#1)
  refine ⟨hlen.trans ?_, henable.trans ?_, hdelay.trans ?_⟩
  · rw [wordPulses_writes_length]
  · rw [wordPulses_enables]
  · rw [wordPulses_delay]

theorem requestScript_counts_line2 {p : Params} {bl : Bit} {w : ReqWord} {sc : Script}
    (h : requestScript p bl w = some sc) (hw : reqOp w = 3#3) :
    HasCounts 246 82 (164 + 82 * p.tSetup + p.tHome) sc := by
  rcases requestScript_cases h with ⟨hop, -⟩ | ⟨hop, -⟩ | ⟨hop, -⟩ | ⟨-, rfl⟩
  · simp [hop] at hw
  · simp [hop] at hw
  · simp [hop] at hw
  · have hcounts := (returnHome_counts p bl).append (cursorRights_counts p bl)
    have hdelay : 4 + 2 * p.tSetup + p.tHome + 40 * (4 + 2 * p.tSetup) = 164 + 82 * p.tSetup + p.tHome := by ring
    rwa [hdelay] at hcounts

theorem requestScript_counts_oneWord {p : Params} {bl : Bit} {w : ReqWord} {sc : Script}
    (h : requestScript p bl w = some sc) (hw : reqOp w ≠ 3#3) :
    HasCounts 6 2 (4 + 2 * p.tSetup + if reqOp w = 2#3 then p.tHome else 0) sc := by
  rcases requestScript_cases h with ⟨hop, rfl⟩ | ⟨hop, rfl⟩ | ⟨hop, rfl⟩ | ⟨hop, -⟩
  · simpa [hop] using wordPulses_counts p (reqData w) bl 0#1
  · simpa [hop] using wordPulses_counts p (reqData w) bl 1#1
  · simpa [hop] using returnHome_counts p bl
  · exact absurd hop hw

/-- Settles O55: the counts of the script that is loaded; a word that loads none gets one answer. -/
theorem requestCounts : Obligations.RequestCounts := by
  refine ⟨fun s w hp hb hw => ?_, fun s w hb hw => ?_⟩
  · obtain ⟨sc, hsc, hexec⟩ := exec_decodeReq_accepts hp hb hw
    refine ⟨_, hexec, seqWrites_add_seqDelays sc, ?_⟩
    rw [startRequest_seq, seqWrites_instrs, seqDelays_sum_instrs]
    exact ⟨requestScript_counts_line2 hsc, requestScript_counts_oneWord hsc⟩
  · by_cases hr : reqReserved w = true
    · exact ⟨_, _, exec_decodeReq_reserved hb hr, rfl, rfl⟩
    · exact ⟨_, _, exec_decodeReq_outsideReady w (hw.resolve_left hr) hb, rfl, rfl⟩

theorem delay_mem_wait {t u : Nat} (h : ScriptAction.d t ∈ wait u) : t = u := by
  unfold wait at h
  split at h
  · cases h
  · simpa using h

/-- A nibble transfer holds for 1 ms, and settles for `T_SETUP` (40_encoder.md R114). -/
theorem delay_mem_nibblePulse {p : Params} {db : Nibble} {bt rs : Bit} {t : Nat}
    (h : ScriptAction.d t ∈ nibblePulse p db bt rs) : t = 1 ∨ t = p.tSetup := by
  simp only [nibblePulse, List.mem_append, List.mem_cons, List.not_mem_nil, or_false, ScriptAction.d.injEq, reduceCtorEq,
    false_or, or_self] at h
  rcases h with h | h
  · exact .inr (delay_mem_wait h)
  · exact .inl h

theorem delay_mem_wordPulses {p : Params} {d : Byte} {bt rs : Bit} {t : Nat}
    (h : ScriptAction.d t ∈ wordPulses p d bt rs) : t = 1 ∨ t = p.tSetup :=
  (List.mem_append.1 h).elim delay_mem_nibblePulse delay_mem_nibblePulse

/-- The Return-Home of the cursor operations waits for `T_HOME` besides (42_runtime_ops.md R174). -/
theorem delay_mem_returnHome {p : Params} {bl : Bit} {t : Nat}
    (h : ScriptAction.d t ∈ returnHome p bl) : t = 1 ∨ t = p.tSetup ∨ t = p.tHome := by
  rcases List.mem_append.1 h with h | h
  · exact (delay_mem_wordPulses h).imp_right .inl
  · exact .inr (.inr (delay_mem_wait h))

theorem delay_mem_requestScript {p : Params} {bl : Bit} {w : ReqWord} {sc : Script} {t : Nat}
    (hsc : requestScript p bl w = some sc) (h : ScriptAction.d t ∈ sc) :
    t = 1 ∨ t = p.tSetup ∨ (t = p.tHome ∧ (reqOp w = 2#3 ∨ reqOp w = 3#3)) := by
  rcases requestScript_cases hsc with ⟨-, rfl⟩ | ⟨-, rfl⟩ | ⟨hop, rfl⟩ | ⟨hop, rfl⟩
  · exact (delay_mem_wordPulses h).imp_right .inl
  · exact (delay_mem_wordPulses h).imp_right .inl
  · exact (delay_mem_returnHome h).imp_right (.imp_right fun ht => ⟨ht, .inl hop⟩)
  · rcases List.mem_append.1 h with h | h
    · exact (delay_mem_returnHome h).imp_right (.imp_right fun ht => ⟨ht, .inr hop⟩)
    · obtain ⟨word, hword, hmem⟩ := List.mem_flatten.1 h
      rw [List.eq_of_mem_replicate hword] at hmem
      exact (delay_mem_wordPulses hmem).imp_right .inl

/-- Settles O56: the delays in `seq` are those of the script that is loaded. -/
theorem noAutomaticDelays : Obligations.NoAutomaticDelays := by
  intro s w hp hb hw
  obtain ⟨sc, hsc, hexec⟩ := exec_decodeReq_accepts hp hb hw
  exact ⟨_, hexec, fun d hd => delay_mem_requestScript hsc ((mem_seqDelays_instrs sc d).1 hd)⟩

/-! ## The end of a request -/

theorem legalStage_ready {s : State} (hp : s.phase = .ready) (h0 : s.stage = 0#3) : LegalStage s :=
  iff_of_false (by rw [hp]; decide) (not_not_intro h0)

theorem sequencerStep_requestDone {s : State} (hp : s.phase = .ready) (hb : s.busy = true) (hseq : s.seq = []) :
    sequencerStep s = .next (completeRequest s) := by
  simp only [sequencerStep, hseq, scriptEnd, hp, if_pos hb]

/-- Settles O32: the step is the sequencer's, and its script is empty. -/
theorem requestCompletes : Obligations.RequestCompletes := by
  intro s later hp h0 hb hseq hlets
  exact (hostLets_step (legalStage_ready hp h0) hlets).trans (sequencerStep_requestDone hp hb hseq)

/-- In READY and free, a presented request is run at once. -/
theorem step_request_ready {s : State} {w : ReqWord} {later : List HostMove} (hp : s.phase = .ready)
    (h0 : s.stage = 0#3) (hb : s.busy = false) (hhost : s.host = .request w :: later) :
    step s = exec (decodeReq w) { s with host := later } :=
  step_request (legalStage_ready hp h0) hb hhost fun ⟨⟨hinit, _⟩, _⟩ => by simp [hp] at hinit

/-- In READY and free, a presented request is accepted with its script, or answered when it is reserved. -/
theorem step_request_free {s : State} {w : ReqWord} {later : List HostMove} (hp : s.phase = .ready)
    (h0 : s.stage = 0#3) (hb : s.busy = false) (hhost : s.host = .request w :: later) :
    (∀ sc, requestScript s.cfg s.bl w = some sc → step s = .next (startRequest sc { s with host := later })) ∧
    (reqReserved w = true → step s = .next (respond (requestDone .illegalOp) { s with host := later })) :=
  ⟨fun _ hsc => (step_request_ready hp h0 hb hhost).trans (exec_decodeReq_ready hp hb hsc),
    fun hw => (step_request_ready hp h0 hb hhost).trans (exec_decodeReq_reserved hb hw)⟩

/-- The end of a request at the write of `v` that fails after the script `before` (42_runtime_ops.md R171). -/
def requestFailed (before : Script) (v : Byte) (s : State) : State := runtimeFailure (afterFailedWrite before v s)

theorem busFailure_request {s : State} (hp : s.phase = .ready) (hb : s.busy = true) :
    busFailure s = runtimeFailure s := by
  rw [busFailure, if_neg (by rw [hp]; decide), if_pos hb]

theorem busFailure_afterFailedWrite {s : State} (hp : s.phase = .ready) (hb : s.busy = true) (before : Script) (v : Byte) :
    busFailure (afterFailedWrite before v s) = requestFailed before v s :=
  busFailure_request (s := afterFailedWrite before v s) hp hb

theorem requestFailed_trace (before : Script) (v : Byte) (s : State) :
    (requestFailed before v s).trace = s.trace ++ scriptEvents s.cfg.expanderAddr7 before
      ++ [Event.w s.cfg.expanderAddr7 v .fail, Event.r ⟨.request, .busFail, 0#3⟩] := List.append_assoc _ _ _

/-- Settles O36: the failure path of READY follows the write, and leaves the block free for the next request. -/
theorem failedWriteEndsRequest : Obligations.FailedWriteEndsRequest := by
  intro s v rest later hp h0 hb hlets hseq hfail
  let acting : State := { s with host := later, seq := rest }
  have hstep : step s = .next (requestFailed [] v acting) := by
    calc step s = exec (.expWrite v) acting := stepRunsScriptHead s later _ rest (legalStage_ready hp h0) hlets hseq
      _ = .next (busFailure (afterFailedWrite [] v acting)) := runScript_write_fails hfail
      _ = .next (requestFailed [] v acting) :=
          congrArg _ (busFailure_afterFailedWrite (s := acting) hp hb [] v)
  refine ⟨_, hstep, hp, h0, rfl, rfl, rfl, rfl, rfl, (afterFailedWrite_exp [] v acting).symm, ?_, rfl, rfl, rfl,
    fun w later' h => step_request_free (s := requestFailed [] v acting) hp h0 rfl h⟩
  rw [requestFailed_trace]
  exact congrArg (· ++ _) (List.append_nil s.trace)

/-! ## Whole requests -/

/-- The end of a served request whose script is `sc`, with `later` left of what the host does. -/
def requestServed (sc : Script) (later : List HostMove) (s : State) : State :=
  completeRequest { afterScript sc s with host := later, seq := [] }

section
variable (sc : Script) (later : List HostMove) (s : State)

@[simp] theorem requestServed_cfg : (requestServed sc later s).cfg = s.cfg := rfl
@[simp] theorem requestServed_phase : (requestServed sc later s).phase = s.phase := rfl
@[simp] theorem requestServed_stage : (requestServed sc later s).stage = s.stage := rfl
@[simp] theorem requestServed_bl : (requestServed sc later s).bl = s.bl := rfl

theorem portsServe_requestServed (next : Script) :
    PortsServe next (requestServed sc later s) ↔ PortsServe next (afterScript sc s) := Iff.rfl

end

theorem requestServed_trace (sc : Script) (later : List HostMove) (s : State) :
    (requestServed sc later s).trace =
      s.trace ++ scriptEvents s.cfg.expanderAddr7 sc ++ [Event.r ⟨.request, .ok, 0#3⟩] := rfl

/-- The sequencer runs a script whose ports serve it to its end, when the host is silent or its request waits: by induction
on the script, one action a step. -/
theorem script_reaches_end (sc : Script) (s : State) (hlegal : LegalStage s) (hlets : HostLets s s.host)
    (hserve : PortsServe sc s) : Reaches { s with seq := sc.instrs } { afterScript sc s with seq := [] } := by
  induction sc generalizing s with
  | nil => exact ⟨0, by rw [afterScript_nil]; rfl⟩
  | cons a sc ih =>
    obtain ⟨hhead, htail⟩ := (portsServe_append [a] sc s).1 hserve
    have hstep : step { s with seq := Script.instrs (a :: sc) } =
        .next { afterScript [a] s with seq := Script.instrs sc } := by
      calc step { s with seq := Script.instrs (a :: sc) } = exec a.instr { s with seq := Script.instrs sc } :=
            stepRunsScriptHead _ s.host a.instr (Script.instrs sc) hlegal hlets rfl
        _ = runScript [a] { s with seq := Script.instrs sc } := by cases a <;> rfl
        _ = .next (afterScript [a] { s with seq := Script.instrs sc }) := runScript_serves hhead
    have hrest := ih (afterScript [a] s) hlegal hlets htail
    rw [← afterScript_append] at hrest
    exact Reaches.trans ⟨1, core_run_one hstep⟩ hrest

/-- A presented request whose ports serve it runs to its OK response, while the host is silent or its next request waits. -/
theorem request_reaches_served {s : State} {w : ReqWord} {sc : Script} {later : List HostMove} (hp : s.phase = .ready)
    (h0 : s.stage = 0#3) (hb : s.busy = false) (hhost : s.host = .request w :: later)
    (hlets : HostLets { s with host := later, busy := true } later) (hsc : requestScript s.cfg s.bl w = some sc)
    (hserve : PortsServe sc s) : Reaches s (requestServed sc later s) := by
  let running : State := { s with host := later, busy := true }
  have haccept : step s = .next { running with seq := sc.instrs } :=
    (step_request_free hp h0 hb hhost).1 sc hsc
  have hrun : Reaches { running with seq := sc.instrs } { afterScript sc running with seq := [] } :=
    script_reaches_end sc running (legalStage_ready hp h0) hlets hserve
  have hdone : step { afterScript sc running with seq := [] } = .next (requestServed sc later s) :=
    requestCompletes _ later hp h0 rfl rfl hlets
  exact Reaches.trans ⟨1, core_run_one haccept⟩ (hrun.trans ⟨1, core_run_one hdone⟩)

/-- Settles O53: the request is accepted, run and answered, and `busy` is 0 again. -/
theorem requestsRunToTheirResponse : Obligations.RequestsRunToTheirResponse := by
  intro s w sc hp h0 hb hhost hsc hserve
  have hrun : Reaches s (requestServed sc [] s) :=
    request_reaches_served hp h0 hb hhost (.inl ⟨rfl, rfl⟩) hsc hserve
  have hfree : requestServed sc [] s = { requestServed sc [] s with busy := s.busy } := by rw [hb]; rfl
  exact hfree ▸ hrun

/-- Settles O54: the request is accepted, its run fails at the write, and the failure path of READY follows. -/
theorem failedRequestEmitsPrefix : Obligations.FailedRequestEmitsPrefix := by
  intro s w sc k hp h0 hb hhost hsc hk hok hfail hd
  let running : State := startRequest sc { s with host := [] }
  have haccept : step s = .next running := (step_request_free hp h0 hb hhost).1 sc hsc
  obtain ⟨before, v, after, hsplit, hlen, hrun⟩ := runFrom_fails 0 k sc running hk hok hfail hd
  obtain ⟨-, hbusFail, -⟩ := sequencerRunsScript sc running [] (legalStage_ready hp h0) rfl (List.append_nil _).symm
  obtain ⟨n, -, hsteps⟩ := hbusFail _ _ hrun
  have hend : Host.Core.run Sys2Proof.core (n + 1) s = .next (requestFailed before v running) :=
    busFailure_afterFailedWrite (s := running) hp rfl before v ▸ (core_run_succ haccept n).trans hsteps
  exact ⟨n + 1, before, after, v, _, hsplit, hlen, hend, hp, h0, rfl, rfl, rfl, rfl, afterFailedWrite_exp before v running,
    requestFailed_trace before v running⟩

/-! ## LINE2 and then LINE1 (42_runtime_ops.md R178) -/

theorem requestScript_line1 {p : Params} {bl : Bit} {w : ReqWord} (h : reqOp w = 2#3) :
    requestScript p bl w = some (returnHome p bl) := by
  simp [requestScript, h, returnHome]

theorem requestScript_line2 {p : Params} {bl : Bit} {w : ReqWord} (h : reqOp w = 3#3) :
    requestScript p bl w = some (returnHome p bl ++ cursorRights p bl) := by
  simp [requestScript, h, returnHome, cursorRights]

theorem scriptEvents_replicate (addr : DevAddr) (n : Nat) (a : Script) :
    scriptEvents addr (List.replicate n a).flatten = (List.replicate n (scriptEvents addr a)).flatten := by
  induction n with
  | zero => rfl
  | succ n ih => simp [List.replicate_succ, ih]

theorem scriptEvents_cursorRights (addr : DevAddr) (p : Params) (bl : Bit) :
    scriptEvents addr (cursorRights p bl) = (List.replicate 40 (scriptEvents addr (wordPulses p 0x14#8 bl 0#1))).flatten :=
  scriptEvents_replicate addr 40 _

theorem scriptWaits_replicate (n : Nat) (a : Script) :
    scriptWaits (List.replicate n a).flatten = n * scriptWaits a := by
  induction n with
  | zero => simp [scriptWaits]
  | succ n ih => simp [List.replicate_succ, ih, Nat.succ_mul, Nat.add_comm]

theorem scriptWaits_wait_le (t : Nat) : scriptWaits (wait t) ≤ 1 := by
  unfold wait
  split
  · exact Nat.zero_le 1
  · next ht => simp [scriptWaits, ht]

/-- A nibble transfer waits twice for its holds, and once more when `T_SETUP` is not 0. -/
theorem scriptWaits_nibblePulse_le (p : Params) (db : Nibble) (bt rs : Bit) :
    scriptWaits (nibblePulse p db bt rs) ≤ 3 := by
  have hsetup := scriptWaits_wait_le p.tSetup
  simp only [nibblePulse, scriptWaits_append, scriptWaits, one_ne_zero, if_false]
  omega

theorem scriptWaits_wordPulses_le (p : Params) (d : Byte) (bt rs : Bit) : scriptWaits (wordPulses p d bt rs) ≤ 6 := by
  have hhigh := scriptWaits_nibblePulse_le p (d.extractLsb' 4 4) bt rs
  have hlow := scriptWaits_nibblePulse_le p (d.extractLsb' 0 4) bt rs
  rw [wordPulses, scriptWaits_append]
  omega

theorem returnHome_waits_le (p : Params) (bl : Bit) : scriptWaits (returnHome p bl) ≤ 7 := by
  have hword := scriptWaits_wordPulses_le p 0x02#8 bl 0#1
  have hhome := scriptWaits_wait_le p.tHome
  rw [returnHome, scriptWaits_append]
  omega

theorem cursorRights_waits_le (p : Params) (bl : Bit) : scriptWaits (cursorRights p bl) ≤ 240 := by
  have hword := scriptWaits_wordPulses_le p 0x14#8 bl 0#1
  rw [cursorRights, scriptWaits_replicate]
  omega

/-- A run of LINE2 and then LINE1 has 252 writes and at most 254 delays. -/
theorem portsServe_line2_line1 {s : State} (hok : s.transport.Gives .ok 252) (hd : s.delays.Gives .elapsed 254) :
    PortsServe (returnHome s.cfg s.bl ++ cursorRights s.cfg s.bl ++ returnHome s.cfg s.bl) s := by
  have hhome := returnHome_waits_le s.cfg s.bl
  have hright := cursorRights_waits_le s.cfg s.bl
  refine ⟨?_, Feed.gives_mono ?_ hd⟩
  · obtain ⟨hlen, -, -⟩ :=
      ((returnHome_counts s.cfg s.bl).append (cursorRights_counts s.cfg s.bl)).append (returnHome_counts s.cfg s.bl)
    rwa [hlen]
  · simp only [scriptWaits_append]
    omega

/-- A presented LINE1 whose ports serve it ends READY and free, with the Return-Home and the OK response in the trace. -/
theorem line1_served {s : State} {w : ReqWord} (hp : s.phase = .ready) (h0 : s.stage = 0#3) (hb : s.busy = false)
    (hhost : s.host = [.request w]) (hop : reqOp w = 2#3) (hserve : PortsServe (returnHome s.cfg s.bl) s) :
    ∃ n t, Host.Core.run Sys2Proof.core n s = .next t ∧
      t.phase = .ready ∧ t.busy = false ∧ t.seq = [] ∧ t.host = [] ∧
      t.trace = s.trace ++ scriptEvents s.cfg.expanderAddr7 (returnHome s.cfg s.bl) ++ [Event.r ⟨.request, .ok, 0#3⟩] := by
  obtain ⟨n, hrun⟩ := request_reaches_served hp h0 hb hhost (.inl ⟨rfl, rfl⟩) (requestScript_line1 hop) hserve
  exact ⟨n, _, hrun, hp, rfl, rfl, rfl, requestServed_trace _ _ s⟩

/-- Settles O58: LINE2 is served while LINE1 waits, and then LINE1 is served from the state LINE2 leaves. -/
theorem lastWordIsReturnHome : Obligations.LastWordIsReturnHome := by
  intro s line2 line1 home right hp h0 hb hline2 hline1 hok hd hhome hright
  replace hhome : home = scriptEvents s.cfg.expanderAddr7 (returnHome s.cfg s.bl) := hhome
  obtain ⟨hserve2, hserve1⟩ := (portsServe_append _ _ s).1 (portsServe_line2_line1 hok hd)
  obtain ⟨hserveHome, -⟩ := (portsServe_append _ _ s).1 hserve2
  refine ⟨fun hhost => ?_, fun hhost => ?_⟩
  · obtain ⟨m, hm⟩ := request_reaches_served hp h0 hb hhost (.inr (.inr ⟨rfl, rfl, line1, [], rfl⟩))
      (requestScript_line2 hline2) hserve2
    rw [← portsServe_requestServed _ [.request line1]] at hserve1
    obtain ⟨n, t, hn, hready, hfree, hseq, hsilent, htrace⟩ :=
      line1_served ((requestServed_phase _ _ s).trans hp) ((requestServed_stage _ _ s).trans h0) rfl rfl hline1 hserve1
    refine ⟨m + n, t, (core_run_add hm).trans hn, hready, hfree, hseq, hsilent, ?_⟩
    simp only [htrace, requestServed_trace, requestServed_cfg, requestServed_bl, scriptEvents_append,
      scriptEvents_cursorRights, hhome, hright, List.append_assoc]
  · rw [hhome]
    exact line1_served hp h0 hb hhost hline1 hserveHome

end Sys2Proof.Machine

/-! PROOFS. Family 60_exceptions.md: the two responses that fall due together at the end of INIT (R204). -/
namespace Sys2Proof.Machine

/-- A non-reserved request that stands presented as the init-completion response falls due is taken, and is not run: the
step is `initEndWithRequest` (60_exceptions.md R204). -/
theorem step_request_initEndDue {s : State} {w : ReqWord} {later : List HostMove} (hdue : InitEndDue s)
    (hb : s.busy = false) (hhost : s.host = .request w :: later) (hw : reqReserved w = false) :
    step s = .next (initEndWithRequest { s with host := later }) := by
  obtain ⟨hp, h7, hseq⟩ := hdue
  have hlegal : LegalStage s := iff_of_true hp (by rw [h7]; decide)
  have hfree : ¬ s.busy = true := by rw [hb]; exact Bool.false_ne_true
  calc step s = requestStep w later s := by simp only [step, machineStep, if_pos hlegal, hhost]
    _ = .next (initEndWithRequest { s with host := later }) := by
      rw [requestStep, if_neg hfree, if_pos ⟨⟨hp, h7, hseq⟩, hw⟩]

/-- All that the end of INIT beside a request writes, in both orders of the responses: with the completion first both are
out, and otherwise only the request's answer is, and `phase` and `stage` still hold the completion as due. -/
theorem initEndWithRequest_orders (s : State) :
    ∃ phase stage answers,
      initEndWithRequest s =
        { s with phase := phase, stage := stage, trace := s.trace ++ answers, draws := s.draws + 1 } ∧
      ((phase = .ready ∧ stage = 0#3 ∧ answers = [.r initOk, .r (requestDone .notReady)]) ∨
       (phase = s.phase ∧ stage = s.stage ∧ answers = [.r (requestDone .notReady)])) := by
  unfold initEndWithRequest
  split
  case isTrue =>
    refine ⟨_, _, _, ?_, .inl ⟨rfl, rfl, rfl⟩⟩
    simp [respond, emit, completeInit]
  case isFalse => exact ⟨_, _, _, rfl, .inr ⟨rfl, rfl, rfl⟩⟩

/-- Settles O33: the request is taken, and the draw chooses between the two orders. -/
theorem simultaneousResponsesInEitherOrder : Obligations.SimultaneousResponsesInEitherOrder := by
  intro s w later hdue hb hhost hw
  obtain ⟨phase, stage, answers, hend, horder⟩ := initEndWithRequest_orders { s with host := later }
  have hstep := (step_request_initEndDue hdue hb hhost hw).trans (congrArg Host.Outcome.next hend)
  obtain ⟨hp, h7, hseq⟩ := hdue
  refine ⟨_, hstep, rfl, hseq, rfl, rfl, hb, rfl, rfl, rfl, rfl, ?_⟩
  rcases horder with ⟨rfl, rfl, rfl⟩ | ⟨rfl, rfl, rfl⟩
  · exact .inl ⟨rfl, rfl, rfl⟩
  · exact .inr ⟨⟨hp, h7, hseq⟩, rfl⟩

end Sys2Proof.Machine

/-! PROOFS. Family 70_reset_and_hazards.md: ports that never answer (R238), the reset input (R230), and a quiescent block
that waits (R242). -/
namespace Sys2Proof.Machine

/-! ## Ports that never answer -/

theorem exec_expWrite_silent {v : Byte} {s : State} (h : s.transport.head = .silent) :
    exec (.expWrite v) s = .fault .transportSilent := by
  rw [exec, execExpWrite, runScript, run, runFrom, expWrite_silent h, finish]

theorem exec_delay_never {t : Nat} {s : State} (ht : t ≠ 0) (h : s.delays.head = .never) :
    exec (.delay t) s = .fault .delayNeverEnds := by
  rw [exec, execDelay, runScript, run, runFrom, delayFor_never ht h, finish]

/-- Settles O37: the step runs the head of `seq`, and the host's moves and the rest of `seq` leave the ports as they are. -/
theorem silentPortsStick : Obligations.SilentPortsStick := by
  constructor
  · intro s v rest later hlegal hlets hseq hsilent
    calc step s = exec (.expWrite v) { s with host := later, seq := rest } :=
          stepRunsScriptHead s later _ rest hlegal hlets hseq
      _ = .fault .transportSilent := exec_expWrite_silent hsilent
  · intro s t rest later hlegal hlets hseq ht hnever
    calc step s = exec (.delay t) { s with host := later, seq := rest } :=
          stepRunsScriptHead s later _ rest hlegal hlets hseq
      _ = .fault .delayNeverEnds := exec_delay_never ht hnever

/-! ## The reset input -/

/-- A reset at the head of the host's moves is what the step takes (70_reset_and_hazards.md R230). -/
theorem step_reset {s : State} {later : List HostMove} (hlegal : LegalStage s) (hhost : s.host = .reset :: later) :
    step s = resetInput { s with host := later } := by
  simp only [step, machineStep, if_pos hlegal, hhost]

/-- Settles O40: whether the block is quiescent does not depend on the host's moves, and the pins are one more draw. -/
theorem resetOnlyWhenQuiescent : Obligations.ResetOnlyWhenQuiescent := by
  constructor
  · intro s later hlegal hhost hq
    refine ⟨Config.expAtReset s.draws, s.draws + 1, ?_⟩
    rw [step_reset hlegal hhost, resetInput, if_pos hq, applyReset, powerSettleScript_eq, blReset]
  · intro s later hlegal hhost hq
    rw [step_reset hlegal hhost, resetInput, if_neg hq]

/-! ## A quiescent block -/

/-- With no action in progress and no response owed the sequencer has nothing to do (70_reset_and_hazards.md R242). -/
theorem sequencerStep_quiescent {s : State} (h : Quiescent s) : sequencerStep s = .next s := by
  obtain ⟨hseq, ⟨hready, hfree⟩ | hfailed⟩ := h
  · simp only [sequencerStep, hseq, scriptEnd, hready, hfree, Bool.false_eq_true, if_false]
  · simp only [sequencerStep, hseq, scriptEnd, hfailed]

/-- Settles O41: the step is the sequencer's. -/
theorem quiescentBlockWaits : Obligations.QuiescentBlockWaits := by
  intro s hlegal hq hhost
  exact (step_silent hlegal hhost).trans (sequencerStep_quiescent hq)

end Sys2Proof.Machine
